-- ==== Sys2Proof/Word.lean ====
section
/-! DEFINITION. The bit widths of the engine (spec/00_scope.md R7; spec/20_memory.md R30), and the parameters of
spec/00_scope.md R5 that the types are made of; the other parameters stand in Config.lean. -/

namespace Sys2Proof

/-- `BLOCK_BITS = 128` (R5). -/
abbrev Config.blockBits : Nat := 128

/-- `KEY_BITS = 128` (R5): a base key is one block. -/
abbrev Config.keyBits : Nat := 128

/-- A table cell, a packet byte or a response byte: 8 bits (R30, R46, R47). -/
abbrev Byte := BitVec 8

/-- A block or a round key. Bit 0 is the least significant (R6). -/
abbrev Block := BitVec Config.blockBits

/-- A base key (R5, R61). -/
abbrev Key := BitVec Config.keyBits

/-- A byte lane 0..15 of a block: the index width of `PERM` and `INVPERM` (R30). -/
abbrev Lane := Fin 16

end Sys2Proof
end

