-- ==== Sys2Proof/Config.lean ====
section
/-! DEFINITION. What the design fixes (the parameters of spec/00_scope.md R5, constants by spec/10_state.md R14)
and the free values, which the spec leaves open. -/

namespace Sys2Proof

/-- `BLOCK_BYTES = 16`: the only operand length a command accepts (R5, R46). -/
def Config.blockBytes : Nat := 16

/-- `NRK = 8`: how many round keys are stored (R5, decision D10). -/
abbrev Config.nrk : Nat := 8

/-- `SBOX_SIZE = 256`: the cells of a table space (R5, R30). -/
abbrev Config.sboxSize : Nat := 256

/-- `SHAMT[0..7]` (R60). -/
def Config.shamt : Vector Nat Config.nrk := #v[0, 1, 2, 4, 8, 16, 32, 64]

/-- `NSWAPS = 65000` (R5, R72). Irreducible, so that no tactic unrolls the swap loop by accident. -/
@[irreducible] def Config.nswaps : Nat := 65000

/-- `SEED_FIX`, taken where the fold of the key is zero (R68, decision D11). -/
def Config.seedFix : BitVec 64 := 0x9E3779B97F4A7C15#64

/-- `PERM[i]`, the destination lane of source lane `i` (R80, decision D12). -/
def Config.perm : Vector Lane 16 := #v[3, 8, 13, 2, 7, 12, 1, 6, 11, 0, 5, 10, 15, 4, 9, 14]

/-- `INVPERM[d]` (R81, decisions D12, D14). -/
def Config.invPerm : Vector Lane 16 := #v[9, 6, 3, 0, 13, 10, 7, 4, 1, 14, 11, 8, 5, 2, 15, 12]

/-- The diffusion granularities `GRAN` (R5, R90). -/
inductive Gran where
  | g1 | g2 | g4 | g8 | g16 | g32 | g64
  deriving DecidableEq, Repr

/-- The group size in bits, which is also the shift amount of `swap_g` (R90, R92). -/
def Gran.width : Gran → Nat
  | .g1 => 1
  | .g2 => 2
  | .g4 => 4
  | .g8 => 8
  | .g16 => 16
  | .g32 => 32
  | .g64 => 64

/-- `DIFF_TERMS`: the seven group swaps, without the original value (R5, R93, decision D13, conflict C1). -/
def Config.diffTerms : List Gran := [.g1, .g2, .g4, .g8, .g16, .g32, .g64]

/-- `NROUNDS = 3` (R5). -/
abbrev Config.nrounds : Nat := 3

/-- The round numbers 1..`NROUNDS` in the order of encryption (R102). -/
def Config.rounds : List (BitVec 2) := (List.range Config.nrounds).map fun r => BitVec.ofNat 2 (r + 1)

/-- The open part of the S-box generator as one record over its state type (R77). -/
structure Prng (σ : Type) where
  seed : Key → σ
  step : σ → σ
  draw : σ → Byte

/-- A FREE VALUE of `w` bits, the `n`-th one drawn: what a scratch register holds after a command (R15, U14) and
what `RK` and the scratch registers hold after a reset event (R22, R150). It has no body, so nothing can be proved
of it beyond what holds of every value. Log entries 4 and 5. -/
opaque Config.freeValue (w : Nat) (n : Nat) : BitVec w

end Sys2Proof
end

