-- ==== Sys2Proof/Syntax.lean ====
section
/-! DEFINITION. The commands a host can issue: one constructor per row of spec/opcode_table.json (spec/30_encoding.md
R46, R49). The operand is the payload of the packet, byte 0 first, of ANY length: a payload that is not 16 bytes is
well-formed as a packet and is answered by the command's own length error (R46, spec/46_commands.md R115). -/

namespace Sys2Proof

inductive Instr where
  /-- `KEY`, opcode `0x01`: construct an instance from a key (R116). -/
  | key (payload : List Byte)
  /-- `ENC`, opcode `0x02`: encrypt one block (R117). -/
  | enc (payload : List Byte)
  /-- `DEC`, opcode `0x03`: decrypt one block (R118). -/
  | dec (payload : List Byte)
  /-- `DIFF`, opcode `0x10`: the diffusion layer once (R119). -/
  | diff (payload : List Byte)
  /-- `PSUB`, opcode `0x11`: the forward permute-substitute layer once (R120). -/
  | psub (payload : List Byte)
  /-- `IPSUB`, opcode `0x12`: the inverse permute-substitute layer once (R121). -/
  | ipsub (payload : List Byte)
  deriving DecidableEq, Repr

/-- The operand bytes of a command, packet offsets 1..n (R46). -/
def Instr.payload : Instr → List Byte
  | .key p => p
  | .enc p => p
  | .dec p => p
  | .diff p => p
  | .psub p => p
  | .ipsub p => p

end Sys2Proof
end

