-- ==== Sys2Proof/WellFormed.lean ====
section
/-! DEFINITION. Which commands carry an operand of the length their signature states. -/

namespace Sys2Proof

/-- "Every defined command takes an operand of exactly 16 bytes" (spec/30_encoding.md R46). A command that is not
well-formed in this sense still decodes and still executes: it is answered by its length error
(spec/46_commands.md R115), so no statement about decoding or stepping needs this predicate. Log entry 16. -/
def Instr.wellFormed (i : Instr) : Bool := i.payload.length == Config.blockBytes

end Sys2Proof
end

