-- ==== Sys2Proof/Decode.lean ====
section
/-! DEFINITION. From the bytes of a command packet to a command and back (spec/30_encoding.md R46, R49, R50), the
opcode table's numbering of the bits of a packet, and the text form of a program line (R53, R54). -/

namespace Sys2Proof

/-! ### The opcode map (R49, decision D3). All eight bits of the opcode byte are compared. -/

def opcodeKey : Byte := 0x01#8
def opcodeEnc : Byte := 0x02#8
def opcodeDec : Byte := 0x03#8
def opcodeDiff : Byte := 0x10#8
def opcodePsub : Byte := 0x11#8
def opcodeIpsub : Byte := 0x12#8

/-- Why bytes are no command. -/
inductive DecodeError where
  /-- No opcode byte: "a packet of zero bytes cannot be framed" (R46), so the port never presents one. -/
  | emptyPacket
  /-- An opcode byte outside R49: `0x00`, `0x04`..`0x0F`, `0x13`..`0xFF` (R50). The machine answers it with
  `IllegalCommand` (R122). -/
  | illegalOpcode (opcode : Byte)
  deriving DecidableEq, Repr

/-- The command an opcode byte and a payload stand for, whatever the length of the payload (R46, R49). -/
def decodeCommand (opcode : Byte) (payload : List Byte) : Except DecodeError Instr :=
  if opcode = opcodeKey then .ok (.key payload)
  else if opcode = opcodeEnc then .ok (.enc payload)
  else if opcode = opcodeDec then .ok (.dec payload)
  else if opcode = opcodeDiff then .ok (.diff payload)
  else if opcode = opcodePsub then .ok (.psub payload)
  else if opcode = opcodeIpsub then .ok (.ipsub payload)
  else .error (.illegalOpcode opcode)

/-- Decode the bytes of one packet: total, rejecting by name. -/
def decode : List Byte → Except DecodeError Instr
  | [] => .error .emptyPacket
  | opcode :: payload => decodeCommand opcode payload

/-- The opcode byte of a command (R49). -/
def Instr.opcode : Instr → Byte
  | .key _ => opcodeKey
  | .enc _ => opcodeEnc
  | .dec _ => opcodeDec
  | .diff _ => opcodeDiff
  | .psub _ => opcodePsub
  | .ipsub _ => opcodeIpsub

/-- The packet of a command: `opcode || payload` (R46). -/
def encode (i : Instr) : List Byte := i.opcode :: i.payload

/-! ### The opcode table's numbering -/

/-- The `n` bytes of `w` from its least significant byte up. -/
def bytesOfNat : Nat → Nat → List Byte
  | 0, _ => []
  | n + 1, w => BitVec.ofNat 8 w :: bytesOfNat n (w / 256)

/-- The packet whose bits are `w`, numbered as spec/opcode_table.json numbers them: bit 0 is the least significant
bit of the opcode byte and later bytes count on from it; `nbits` bits are given and every bit above them, up to the
longest packet a command accepts (opcode and 16 payload bytes), is 0. Log entry 17. -/
def tablePacket (nbits w : Nat) : List Byte :=
  bytesOfNat (max (Config.blockBytes + 1) ((nbits + 7) / 8)) (w % 2 ^ nbits)

/-- The command the decoder reads from the packet whose bits are `w` (`none` where it refuses). -/
def decodeTableWord (nbits w : Nat) : Option Instr :=
  match decode (tablePacket nbits w) with
  | .ok i => some i
  | .error _ => none

/-! ### The text form of a program line (R53, R54, decision D21) -/

/-- One line of the text form: exactly one packet or the reset event (R54). -/
inductive AsmLine where
  /-- `<mnemonic> [<hex>]` -/
  | command (i : Instr)
  /-- `RAW <2 hex digits> [<hex>]` -/
  | raw (opcode : Byte) (payload : List Byte)
  /-- `RESET`: the reset event, not a packet. -/
  | reset
  deriving DecidableEq, Repr

/-- The packet a line assembles to, `opcode || payload`; `none` for the reset event, which is no packet. -/
def AsmLine.packet? : AsmLine → Option (List Byte)
  | .command i => some (encode i)
  | .raw opcode payload => some (opcode :: payload)
  | .reset => none

/-- The value of a hex digit. -/
def hexDigit (c : Char) : Option Nat :=
  if '0' ≤ c ∧ c ≤ '9' then some (c.toNat - '0'.toNat)
  else if 'a' ≤ c ∧ c ≤ 'f' then some (c.toNat - 'a'.toNat + 10)
  else if 'A' ≤ c ∧ c ≤ 'F' then some (c.toNat - 'A'.toNat + 10)
  else none

/-- "an even number (possibly zero) of hex digits, two per payload byte, first payload byte first". -/
def hexBytes : List Char → Option (List Byte)
  | [] => some []
  | [_] => none
  | h :: l :: rest =>
    match hexDigit h, hexDigit l, hexBytes rest with
    | some a, some b, some bs => some (BitVec.ofNat 8 (16 * a + b) :: bs)
    | _, _, _ => none

/-- The words of a line: split at spaces, the comment after `;` dropped. -/
def lineWords : List Char → List Char → List (List Char)
  | [], cur => if cur.isEmpty then [] else [cur]
  | c :: cs, cur =>
    if c = ';' then (if cur.isEmpty then [] else [cur])
    else if c = ' ' then (if cur.isEmpty then lineWords cs [] else cur :: lineWords cs [])
    else lineWords cs (cur ++ [c])

/-- The command a mnemonic names (R53). -/
def mnemonicCommand (m : List Char) (payload : List Byte) : Option Instr :=
  if m = ['K', 'E', 'Y'] then some (.key payload)
  else if m = ['E', 'N', 'C'] then some (.enc payload)
  else if m = ['D', 'E', 'C'] then some (.dec payload)
  else if m = ['D', 'I', 'F', 'F'] then some (.diff payload)
  else if m = ['P', 'S', 'U', 'B'] then some (.psub payload)
  else if m = ['I', 'P', 'S', 'U', 'B'] then some (.ipsub payload)
  else none

/-- Read one line of the text form (R53). The payload is one word of hex digits or absent. Log entry 20. -/
def parseLine (line : List Char) : Option AsmLine :=
  match lineWords line [] with
  | [m] =>
    if m = ['R', 'E', 'S', 'E', 'T'] then some .reset
    else (mnemonicCommand m []).map .command
  | [m, a] =>
    match hexBytes a with
    | none => none
    | some bs =>
      if m = ['R', 'A', 'W'] then
        match bs with
        | [opcode] => some (.raw opcode [])
        | _ => none
      else (mnemonicCommand m bs).map .command
  | [m, a, b] =>
    if m = ['R', 'A', 'W'] then
      match hexBytes a, hexBytes b with
      | some [opcode], some payload => some (.raw opcode payload)
      | _, _ => none
    else none
  | _ => none

end Sys2Proof
end

