-- ==== Sys2Proof/Machine/State.lean ====
section
/-! DEFINITION. The state of one engine (spec/10_state.md R10, R22; spec/30_encoding.md R45), the reasons a step can
stop, and the state after reset. -/

namespace Sys2Proof.Machine

/-! ### Table memory -/

/-- A table space (R30): the cells that hold a value, as (index, byte) pairs, indexes strictly rising. An unlisted
cell HOLDS NO VALUE ("hold no value until a successful `KEY`", R22), so in the canonical form every listed cell is a
written one. Log entry 1. -/
abbrev Memory := List Host.Cell

/-- The value of a cell, if it holds one. -/
def Memory.read : Memory → Nat → Option Byte
  | [], _ => none
  | (k, v) :: m, a => if k = a then some v else Memory.read m a

/-- Write one cell, keeping the indexes strictly rising. -/
def Memory.write : Memory → Nat → Byte → Memory
  | [], a, v => [(a, v)]
  | (k, w) :: m, a, v =>
    if a < k then (a, v) :: (k, w) :: m
    else if a = k then (a, v) :: m
    else (k, w) :: Memory.write m a v

/-- Every index of `m` is at least `lo` and below `SBOX_SIZE`, and they rise strictly. -/
def Memory.sortedFrom : Nat → Memory → Bool
  | _, [] => true
  | lo, (k, _) :: m => decide (lo ≤ k) && decide (k < Config.sboxSize) && Memory.sortedFrom (k + 1) m

/-- The canonical form: indexes strictly rising and inside the space 0..255 (R37). -/
def Memory.wf (m : Memory) : Bool := Memory.sortedFrom 0 m

/-! ### The port -/

/-- One transfer on a stream of the port: a byte and whether it is the last of its packet (R45). -/
structure Beat where
  data : Byte
  last : Bool
  deriving DecidableEq, Repr

/-- What the host does at the port (R45, R150). Log entries 6, 8, 9. -/
inductive HostEvent where
  /-- A byte on the command stream: `c_data` with its `c_last`. -/
  | cmd (b : Beat)
  /-- The host takes one byte of the response stream, if the engine offers one. -/
  | take
  /-- The reset input `rst` is asserted. -/
  | rst
  deriving DecidableEq, Repr

/-- The status of a response: exactly five values (R52, U17). -/
inductive Status where
  /-- the command completed -/
  | ok
  /-- `KEY` with a payload that is not 16 bytes (R131) -/
  | invalidKeyLength
  /-- a block command with a payload that is not 16 bytes (R132) -/
  | invalidBlockLength
  /-- a keyed command while `KEYVALID = 0` (R133) -/
  | noKey
  /-- an opcode not in R49 (R134) -/
  | illegalCommand
  deriving DecidableEq, Repr

/-- The phases of the round controller (R106): `IDLE`, `RECV`, `CHECK`, one per operation of R100, `ERR`. -/
inductive Phase where
  | idle | recv | check
  | ks | seed | sbinit | sbswap | sbinv
  | ldst | ark | diffop | psubop | ipsubop
  | resp | err
  deriving DecidableEq, Repr

/-! ### The state -/

/-- The complete state of one engine (R10) with both sides of its port (R45). Plain data. -/
structure State where
  /-- `PHASE` (R15, R106) -/
  phase : Phase
  /-- `KEYVALID` (R11) -/
  keyValid : Bool
  /-- `RK[0..7]` (R12) -/
  rk : Vector Block Config.nrk
  /-- `SBOX[0..255]` (R13) -/
  sbox : Memory
  /-- `INVSBOX[0..255]` (R13) -/
  invsbox : Memory
  /-- `ST`, scratch (R15) -/
  st : Block
  /-- `PRNG`, scratch (R15) -/
  prng : BitVec 64
  /-- `RND`, the round number, scratch (R15) -/
  rnd : BitVec 2
  /-- `SWAPCNT`, scratch (R15) -/
  swapcnt : BitVec 16
  /-- `IDX`, scratch (R15) -/
  idx : BitVec 9
  /-- `INB`, the first 16 payload bytes packed, scratch (R15, R51) -/
  inb : Block
  /-- `LEN`, the payload byte count saturating at 17, scratch (R15, R51) -/
  len : BitVec 5
  /-- `OPC`, the opcode byte, scratch (R15, R51) -/
  opc : Byte
  /-- What the host does next, oldest first; a packet in progress stands at its front. The model's own field for the
  input side of the port (R45). Log entries 6, 7. -/
  hostIn : List HostEvent
  /-- The rest of the response packet being sent; empty when no response is pending (R22, R45). -/
  rspPending : List Beat
  /-- The transfers that have left on the response stream, oldest first. The model's own field for the output side of
  the port (R45). Log entry 11. -/
  rspSent : List Beat
  /-- How many free values have been drawn. The model's own field. Log entry 4. -/
  draws : Nat
  deriving DecidableEq, Repr

/-- The two writable table spaces (R30). -/
inductive TableSpace where
  | sbox | invsbox
  deriving DecidableEq, Repr

/-- Why a step stops the machine. The errors of R130 are NOT here: they are responses, and the engine goes on
(R136, R138). -/
inductive Fault where
  /-- A look-up read a table cell that holds no value. Raised by the controller operations `PSUBOP` and `IPSUBOP`
  (so by `ENC`, `PSUB`, `DEC`, `IPSUB`). Safe: by R23 it happens in no run, and in the states no run reaches the model
  stops instead of choosing a value. Log entry 1. -/
  | unwrittenCell (space : TableSpace)
  deriving DecidableEq, Repr

/-- Why an instruction is refused. -/
inductive Refusal where
  /-- An instruction without a meaning in this model, by its mnemonic. Raised by no arm of `exec`: every row of the
  table has its meaning. Safe. -/
  | notModelled (mnemonic : String)
  deriving DecidableEq, Repr

/-- The engine right after power-on, which is a reset (R22, R150): unkeyed, idle, no packet in progress, no response
pending, table cells that hold no value. `RK` and the scratch registers, for which R22 states no value, hold 0: a
DESIGN CHOICE, log entries 2 and 3. The model's own fields start empty (log entries 4, 6, 11). -/
def State.reset : State where
  phase := .idle
  keyValid := false
  rk := Vector.replicate Config.nrk 0
  sbox := []
  invsbox := []
  st := 0#128
  prng := 0#64
  rnd := 0#2
  swapcnt := 0#16
  idx := 0#9
  inb := 0#128
  len := 0#5
  opc := 0#8
  hostIn := []
  rspPending := []
  rspSent := []
  draws := 0

end Sys2Proof.Machine
end

