-- ==== Sys2Proof/Machine/Operands.lean ====
section
/-! DEFINITION. Blocks and their bytes (spec/00_scope.md R6), operand assembly and the packet-assembly registers
(spec/30_encoding.md R48, R51), and the wire form of packets and responses (R46, R47). -/

namespace Sys2Proof.Machine

/-- The byte lanes in order: "for i in 0..15". -/
def lanes : List Lane := [0, 1, 2, 3, 4, 5, 6, 7, 8, 9, 10, 11, 12, 13, 14, 15]

/-- `byte(X, i) = X[8i+7 : 8i]` (R6). -/
def byteOf (x : Block) (i : Lane) : Byte := x.extractLsb' (8 * i.val) 8

/-- `X` with the byte of one lane replaced. -/
def setByte (x : Block) (i : Lane) (b : Byte) : Block :=
  (x &&& ~~~(0xff#128 <<< (8 * i.val))) ||| (b.setWidth Config.blockBits <<< (8 * i.val))

/-- `pack(b0, ..., b15) = b0 + b1*2^8 + ... + b15*2^120` (R6, `PACK` little-endian, decision D1). -/
def pack : List Byte → Block
  | [] => 0#128
  | b :: bs => b.setWidth Config.blockBits ||| (pack bs <<< 8)

/-- `unpack(X) = (byte(X,0), ..., byte(X,15))` (R6). -/
def unpack (x : Block) : List Byte := lanes.map (byteOf x)

/-- `INB` once the payload bytes have come: bytes 1..16 of the payload are stored, later ones dropped; a lane whose
byte has not come keeps what it held (R51). Log entry 13. -/
def latchInb (old : Block) (payload : List Byte) : Block :=
  pack (lanes.map fun i => payload.getD i.val (byteOf old i))

/-- `LEN`: the payload byte count, saturating at 17 (R51). -/
def latchLen (payload : List Byte) : BitVec 5 := BitVec.ofNat 5 (min payload.length 17)

/-- The port's registers while and after a packet comes in: the first byte in `OPC`, the payload in `INB`, its length
in `LEN`, the controller in `RECV` (R51, R106). -/
def State.receive (s : State) (opcode : Byte) (payload : List Byte) : State :=
  { s with opc := opcode, inb := latchInb s.inb payload, len := latchLen payload, phase := .recv }

/-- The transfers of a packet: its bytes in order, `last` on the last one only (R45). -/
def beatsOf : List Byte → List Beat
  | [] => []
  | [b] => [⟨b, true⟩]
  | b :: bs => ⟨b, false⟩ :: beatsOf bs

/-- The host events that send a packet. -/
def packetEvents (bytes : List Byte) : List HostEvent := (beatsOf bytes).map .cmd

/-- What the host does for one line of a program (R53, R54): it sends the line's one packet, or, for `RESET`, takes what
is left of the last response (at most 17 bytes, R47) and asserts `rst`, so that the reset is an event between commands
(R153). Log entry 20. -/
def asmEvents (l : AsmLine) : List HostEvent :=
  match l.packet? with
  | some bytes => packetEvents bytes
  | none => List.replicate 17 .take ++ [.rst]

end Sys2Proof.Machine
end

