-- ==== Sys2Proof/Machine/Flags.lean ====
section
/-! DEFINITION. The one flag, `KEYVALID` (spec/10_state.md R11, R18), and the status codes of responses
(spec/30_encoding.md R47, R52). There are no condition codes. -/

namespace Sys2Proof.Machine

/-- `KEYVALID <- 1`, the last step of `Construct` (spec/45_round_controller.md R105). -/
def State.setKeyValid (s : State) : State := { s with keyValid := true }

/-- Whether a command that needs a key finds none: check 3 of spec/46_commands.md R115. -/
def State.lacksKey (s : State) (needsKey : Bool) : Bool := needsKey && !s.keyValid

/-- The `status` byte of a response (R52, decision D4). -/
def statusCode : Status → Byte
  | .ok => 0x00#8
  | .invalidKeyLength => 0x01#8
  | .invalidBlockLength => 0x02#8
  | .noKey => 0x03#8
  | .illegalCommand => 0x04#8

/-- The bytes of a response packet: the status, then the 16 bytes of the block if the response carries one (R47). -/
def responseBytes (status : Status) (data : Option Block) : List Byte :=
  statusCode status :: (match data with | none => [] | some x => unpack x)

/-- The status name as the text form of a response writes it (R52, R53). -/
def statusName : Status → List Char
  | .ok => ['O', 'K']
  | .invalidKeyLength => ['I', 'n', 'v', 'a', 'l', 'i', 'd', 'K', 'e', 'y', 'L', 'e', 'n', 'g', 't', 'h']
  | .invalidBlockLength => ['I', 'n', 'v', 'a', 'l', 'i', 'd', 'B', 'l', 'o', 'c', 'k', 'L', 'e', 'n', 'g', 't', 'h']
  | .noKey => ['N', 'o', 'K', 'e', 'y']
  | .illegalCommand => ['I', 'l', 'l', 'e', 'g', 'a', 'l', 'C', 'o', 'm', 'm', 'a', 'n', 'd']

/-- A byte as two lower-case hex digits. -/
def hexText (b : Byte) : List Char := [Nat.digitChar (b.toNat / 16), Nat.digitChar (b.toNat % 16)]

/-- A response as a program listing writes it, `-> <status name> [<hex>]` (R53, decision D21). -/
def responseText (status : Status) (data : Option Block) : List Char :=
  ['-', '>', ' '] ++ statusName status ++ (match data with | none => [] | some x => ' ' :: (unpack x).flatMap hexText)

/-- The transfers of a response packet. -/
def responseBeats (status : Status) (data : Option Block) : List Beat := beatsOf (responseBytes status data)

end Sys2Proof.Machine
end

