-- ==== Sys2Proof/Machine/Ops.lean ====
section
/-! DEFINITION. The named operations over tables, registers and the port that the commands share: table access
(spec/20_memory.md R34), the end of a command (spec/10_state.md R15), success and error responses
(spec/30_encoding.md R47, spec/60_exceptions.md R136), the transfer of a response (R45), and the reset event
(spec/70_reset_and_hazards.md R150). -/

namespace Sys2Proof.Machine

/-! ### Table access: one cell, at an index as wide as the space is deep (R33, R34) -/

/-- `MemRead(T, a)` (R8); `none` where the cell holds no value. -/
def memRead (t : Memory) (a : Byte) : Option Byte := t.read a.toNat

/-- `MemWrite(T, a, v)` (R8). -/
def memWrite (t : Memory) (a v : Byte) : Memory := t.write a.toNat v

/-- `PERM[i]` (R80). -/
def permRead (i : Lane) : Lane := Config.perm[i]

/-- `INVPERM[d]` (R81). -/
def invPermRead (d : Lane) : Lane := Config.invPerm[d]

/-- `RK[r]` for the round number in `RND` (R101): only `RK[0..3]` can be read (R63). -/
def State.readRk (s : State) (r : BitVec 2) : Block :=
  s.rk[r.toNat]'(Nat.lt_of_lt_of_le r.isLt (by decide))

/-! ### The end of a command -/

/-- After a command the scratch registers hold unspecified values (R15, U14): one free value each. Log entry 4. -/
def State.freeScratch (s : State) : State :=
  { s with
    st := Config.freeValue Config.blockBits s.draws
    prng := Config.freeValue 64 (s.draws + 1)
    rnd := Config.freeValue 2 (s.draws + 2)
    swapcnt := Config.freeValue 16 (s.draws + 3)
    idx := Config.freeValue 9 (s.draws + 4)
    inb := Config.freeValue Config.blockBits (s.draws + 5)
    len := Config.freeValue 5 (s.draws + 6)
    opc := Config.freeValue 8 (s.draws + 7)
    draws := s.draws + 8 }

/-- `RESP`: `respond(OK)` or `respond(OK, X)` (R47, R100). The controller stays in `RESP` until the response has been
sent (R106). -/
def State.respond (s : State) (data : Option Block) : State :=
  { s.freeScratch with phase := .resp, rspPending := responseBeats .ok data }

/-- `raise E` (R8, R136): TAKING AN ERROR, the one operation for all four. The response is the one status byte; nothing
is saved and no architectural state changes (R136, R137). There is no return from it (R138): the next packet is
accepted once the response has been sent. -/
def State.raise (s : State) (e : Status) : State :=
  { s.freeScratch with phase := .err, rspPending := responseBeats e none }

/-! ### The transfer of a response (R45) -/

/-- The host takes one byte of the response; with the last one the controller is `IDLE` again (R106). With no response
pending nothing is transferred. -/
def State.transfer (s : State) : State :=
  match s.rspPending with
  | [] => s
  | [b] => { s with rspPending := [], rspSent := s.rspSent ++ [b], phase := .idle }
  | b :: bs => { s with rspPending := bs, rspSent := s.rspSent ++ [b] }

/-- All of the pending response has been transferred: what must have happened before the engine takes a byte of the
next command packet (R45). Log entry 8. -/
def State.drain (s : State) : State :=
  { s with
    rspPending := []
    rspSent := s.rspSent ++ s.rspPending
    phase := if s.rspPending = [] then s.phase else .idle }

/-- A whole packet has been taken off the command stream; `rest` is what the host does after it. -/
def State.accept (s : State) (rest : List HostEvent) : State := { s.drain with hostIn := rest }

/-! ### The reset event -/

/-- `RK` after a reset event: unspecified (R22, R151), one free value for each register. -/
def freeRk (n : Nat) : Vector Block Config.nrk :=
  #v[Config.freeValue Config.blockBits n, Config.freeValue Config.blockBits (n + 1),
     Config.freeValue Config.blockBits (n + 2), Config.freeValue Config.blockBits (n + 3),
     Config.freeValue Config.blockBits (n + 4), Config.freeValue Config.blockBits (n + 5),
     Config.freeValue Config.blockBits (n + 6), Config.freeValue Config.blockBits (n + 7)]

/-- Asserting `rst` (R150, R153): `KEYVALID <- 0`, `PHASE <- IDLE`, no packet in progress, no response pending (a
pending response is abandoned); the table cells hold no value, `RK` and the scratch registers are unspecified.
`rest` is what the host does afterwards. Log entry 5. -/
def State.resetEvent (s : State) (rest : List HostEvent) : State :=
  { s.freeScratch with
    keyValid := false
    rk := freeRk (s.draws + 8)
    sbox := []
    invsbox := []
    phase := .idle
    hostIn := rest
    rspPending := []
    draws := s.draws + 8 + Config.nrk }

end Sys2Proof.Machine
end

