-- ==== Sys2Proof/Machine/Diffusion.lean ====
section
/-! DEFINITION. The diffusion layer (spec/44_diffusion.md). -/

namespace Sys2Proof.Machine

/-- `MASK[g]`: bit p is 1 exactly when `(p div g)` is even (R90). -/
def mask : Gran → Block
  | .g1 => 0x55555555555555555555555555555555#128
  | .g2 => 0x33333333333333333333333333333333#128
  | .g4 => 0x0f0f0f0f0f0f0f0f0f0f0f0f0f0f0f0f#128
  | .g8 => 0x00ff00ff00ff00ff00ff00ff00ff00ff#128
  | .g16 => 0x0000ffff0000ffff0000ffff0000ffff#128
  | .g32 => 0x00000000ffffffff00000000ffffffff#128
  | .g64 => 0x0000000000000000ffffffffffffffff#128

/-- `swap_g(X)`: even groups move toward bit 127, odd groups toward bit 0 (R92). -/
def swapG (g : Gran) (x : Block) : Block :=
  ((x &&& mask g) <<< g.width) ||| ((x &&& ~~~mask g) >>> g.width)

/-- The XOR of the given group swaps of one input: each term is taken from `x`, not from the running result (R93). -/
def diffWith (terms : List Gran) (x : Block) : Block := terms.foldl (fun r g => r ^^^ swapG g x) 0#128

/-- `Diff(X) = swap_1(X) ^ swap_2(X) ^ ... ^ swap_64(X)` (R93, conflict C1). -/
def diff (x : Block) : Block := diffWith Config.diffTerms x

end Sys2Proof.Machine
end

