-- ==== Sys2Proof/Machine/KeySchedule.lean ====
section
/-! DEFINITION. The key schedule (spec/41_key_schedule.md). -/

namespace Sys2Proof.Machine

/-- `RoundKey(K, i) = (K << SHAMT[i])[127:0]` (R61). -/
def roundKey (k : Key) (i : Fin Config.nrk) : Block := k <<< Config.shamt[i]

/-- The `NRK` round keys of a key, which `KS` writes together (R62). -/
def roundKeys (k : Key) : Vector Block Config.nrk :=
  #v[roundKey k 0, roundKey k 1, roundKey k 2, roundKey k 3, roundKey k 4, roundKey k 5, roundKey k 6, roundKey k 7]

end Sys2Proof.Machine
end

