-- ==== Sys2Proof/Machine/SboxGenerator.lean ====
section
/-! DEFINITION. The S-box generator (spec/42_sbox_generator.md): the generator XS64, the identity fill, the swap loop
over any generator record, the inverse table. The two 256-cell loops are irreducible, so that no tactic unrolls them by
accident; Laws/Sbox.lean says what they do to each cell. -/

namespace Sys2Proof.Machine

/-! ### The generator XS64 (decision D11) -/

/-- `Seed(K)`: the XOR fold of the key's halves, `SEED_FIX` where that is zero (R68). -/
def prngSeed (k : Key) : BitVec 64 :=
  let s := k.extractLsb' 0 64 ^^^ k.extractLsb' 64 64
  if s = 0#64 then Config.seedFix else s

/-- `Step(x)` (R69). -/
def prngStep (x : BitVec 64) : BitVec 64 :=
  let a := x ^^^ (x <<< 13)
  let b := a ^^^ (a >>> 7)
  b ^^^ (b <<< 17)

/-- `Draw(x) = x[63:56]` (R70). -/
def prngDraw (x : BitVec 64) : Byte := x.extractLsb' 56 8

/-- The value of the parameter `PRNG` in this hardware (R77). -/
def xs64 : Prng (BitVec 64) where
  seed := prngSeed
  step := prngStep
  draw := prngDraw

/-! ### The tables -/

/-- All byte values in order: "for b in 0..255". -/
def byteValues : List Byte := (List.range Config.sboxSize).map (BitVec.ofNat 8)

/-- `SBINIT` over a table: `MemWrite(SBOX, b, b)` for b in 0..255 (R71). -/
@[irreducible] def sbInit (t : Memory) : Memory := byteValues.foldl (fun t b => memWrite t b b) t

/-- One swap of two cells: both are read, then both are written (R72). A swap with a cell that holds no value leaves
the table as it is: `SBINIT` has filled every cell before, so none occurs (log entry 12). -/
def swapCells (t : Memory) (i j : Byte) : Memory :=
  match memRead t i, memRead t j with
  | some vi, some vj => memWrite (memWrite t i vj) j vi
  | _, _ => t

/-- `n` iterations of the swap loop: two generator steps each, the first draw is i, the second is j (R72). -/
def swapLoop {σ : Type} (g : Prng σ) : Nat → σ → Memory → σ × Memory
  | 0, x, t => (x, t)
  | n + 1, x, t =>
    let x1 := g.step x
    let x2 := g.step x1
    swapLoop g n x2 (swapCells t (g.draw x1) (g.draw x2))

/-- `SBINV` over the two tables: `MemWrite(INVSBOX, MemRead(SBOX, b), b)` for b in 0..255 (R73). A cell that holds no
value is passed over: none occurs after `SBINIT` (log entry 12). -/
@[irreducible] def sbInv (sbox invsbox : Memory) : Memory :=
  byteValues.foldl
    (fun inv b =>
      match memRead sbox b with
      | some v => memWrite inv v b
      | none => inv)
    invsbox

/-- The forward table that `n` swaps drawn from `g` make of the identity. -/
def sboxOf {σ : Type} (g : Prng σ) (n : Nat) (k : Key) : Memory := (swapLoop g n (g.seed k) (sbInit [])).2

/-- `SboxGen` for any generator record and swap count (R74, R77). -/
def sboxGenWith {σ : Type} (g : Prng σ) (n : Nat) (k : Key) : Memory × Memory :=
  (sboxOf g n k, sbInv (sboxOf g n k) [])

/-- `SboxGen(K) = (SBOX, INVSBOX)` of this hardware (R74). -/
def sboxGen (k : Key) : Memory × Memory := sboxGenWith xs64 Config.nswaps k

end Sys2Proof.Machine
end

