-- ==== Sys2Proof/Machine/Substitution.lean ====
section
/-! DEFINITION. The byte permutation and substitution layer (spec/43_permutation_substitution.md). -/

namespace Sys2Proof.Machine

/-- Substitute the bytes of the given lanes of `x` through table `t` and place each in `y` at the lane `place` gives
for its source lane; `none` where a cell read holds no value. -/
def substLanes (t : Memory) (place : Lane → Lane) (x : Block) : List Lane → Block → Option Block
  | [], y => some y
  | i :: is, y =>
    match memRead t (byteOf x i) with
    | none => none
    | some v => substLanes t place x is (setByte y (place i) v)

/-- `PSub(X, S)`: `Y.byte[PERM[i]] <- MemRead(S, byte(X, i))` for i in 0..15 (R82). Every lane of `Y` is written. -/
def pSub (x : Block) (t : Memory) : Option Block := substLanes t permRead x lanes 0#128

/-- `IPSub(X, T)`: `Y.byte[INVPERM[i]] <- MemRead(T, byte(X, i))` for i in 0..15 (R83). -/
def ipSub (x : Block) (t : Memory) : Option Block := substLanes t invPermRead x lanes 0#128

end Sys2Proof.Machine
end

