-- ==== Sys2Proof/Machine/Controller.lean ====
section
/-! DEFINITION. The round controller (spec/45_round_controller.md): its internal operations, its three fixed
sequences, and the functions `Encrypt` and `Decrypt` the sequences compute. -/

namespace Sys2Proof.Machine

/-- The controller's operations (R100), but `RESP`, which is `State.respond`. None has an encoding (R55). -/
inductive Op where
  | ks | seed | sbinit | sbswap | sbinv
  | ldst
  | ark (r : BitVec 2)
  | diffop | psubop | ipsubop
  deriving DecidableEq, Repr

/-- `KS`: `RK[i] <- RoundKey(K, i)` for i in 0..7, K the assembled key in `INB` (R62). -/
def opKs (s : State) : State := { s with phase := .ks, rk := roundKeys s.inb }

/-- `SEED`: `PRNG <- Seed(K)` (R68). -/
def opSeed (s : State) : State := { s with phase := .seed, prng := xs64.seed s.inb }

/-- `SBINIT`: the identity fill; `IDX` counts the cells (R71, R106). -/
def opSbinit (s : State) : State :=
  { s with phase := .sbinit, idx := BitVec.ofNat 9 Config.sboxSize, sbox := sbInit s.sbox }

/-- `SBSWAP`: the 65,000 swaps; `SWAPCNT` counts them (R72, R106). -/
def opSbswap (s : State) : State :=
  { s with
    phase := .sbswap
    swapcnt := BitVec.ofNat 16 Config.nswaps
    prng := (swapLoop xs64 Config.nswaps s.prng s.sbox).1
    sbox := (swapLoop xs64 Config.nswaps s.prng s.sbox).2 }

/-- `SBINV`: build the inverse table; `IDX` counts the cells (R73, R106). -/
def opSbinv (s : State) : State :=
  { s with phase := .sbinv, idx := BitVec.ofNat 9 Config.sboxSize, invsbox := sbInv s.sbox s.invsbox }

/-- `LDST`: `ST <- INB` (R101). -/
def opLdst (s : State) : State := { s with phase := .ldst, st := s.inb }

/-- `ARK r`: `ST <- ST ^ RK[r]`, r taken from `RND` (R101). -/
def opArk (r : BitVec 2) (s : State) : State := { s with phase := .ark, rnd := r, st := s.st ^^^ s.readRk r }

/-- `DIFFOP`: `ST <- Diff(ST)` (R93). -/
def opDiffop (s : State) : State := { s with phase := .diffop, st := diff s.st }

/-- `PSUBOP`: `ST <- PSub(ST, SBOX)` (R82). -/
def opPsubop (s : State) : Except Fault State :=
  match pSub s.st s.sbox with
  | some y => .ok { s with phase := .psubop, st := y }
  | none => .error (.unwrittenCell .sbox)

/-- `IPSUBOP`: `ST <- IPSub(ST, INVSBOX)` (R83). -/
def opIpsubop (s : State) : Except Fault State :=
  match ipSub s.st s.invsbox with
  | some y => .ok { s with phase := .ipsubop, st := y }
  | none => .error (.unwrittenCell .invsbox)

/-- One operation of the controller. -/
def runOp (op : Op) (s : State) : Except Fault State :=
  match op with
  | .ks => .ok (opKs s)
  | .seed => .ok (opSeed s)
  | .sbinit => .ok (opSbinit s)
  | .sbswap => .ok (opSbswap s)
  | .sbinv => .ok (opSbinv s)
  | .ldst => .ok (opLdst s)
  | .ark r => .ok (opArk r s)
  | .diffop => .ok (opDiffop s)
  | .psubop => opPsubop s
  | .ipsubop => opIpsubop s

/-- The operations of a sequence, in order. -/
def runOps : List Op → State → Except Fault State
  | [], s => .ok s
  | op :: ops, s =>
    match runOp op s with
    | .ok s' => runOps ops s'
    | .error f => .error f

/-! ### The sequences (R106) -/

/-- The construct sequence up to `KEYVALID <- 1` (R105). -/
def constructOps : List Op := [.ks, .seed, .sbinit, .sbswap, .sbinv]

/-- The encrypt sequence (R102): `LDST`, `ARK 0`, then for r in 1..3 `DIFFOP`, `PSUBOP`, `ARK r`. -/
def encryptOps : List Op := [.ldst, .ark 0#2] ++ Config.rounds.flatMap fun r => [.diffop, .psubop, .ark r]

/-- The decrypt sequence (R103): `LDST`, then for r in 3, 2, 1 `ARK r`, `IPSUBOP`, `DIFFOP`; then `ARK 0`. -/
def decryptOps : List Op :=
  [.ldst] ++ (Config.rounds.reverse.flatMap fun r => [.ark r, .ipsubop, .diffop]) ++ [.ark 0#2]

/-- The single-layer sequences of the diagnostic commands (R106). -/
def diffOps : List Op := [.ldst, .diffop]
def psubOps : List Op := [.ldst, .psubop]
def ipsubOps : List Op := [.ldst, .ipsubop]

/-! ### The functions -/

/-- The rounds of `Encrypt`, each diffusion, permute-substitute, key addition (R102). -/
def encryptRounds (rk : BitVec 2 → Block) (t : Memory) : List (BitVec 2) → Block → Option Block
  | [], x => some x
  | r :: rs, x =>
    match pSub (diff x) t with
    | some y => encryptRounds rk t rs (y ^^^ rk r)
    | none => none

/-- `Encrypt(P, RK, SBOX)` (R102). -/
def encrypt (p : Block) (rk : BitVec 2 → Block) (t : Memory) : Option Block :=
  encryptRounds rk t Config.rounds (p ^^^ rk 0#2)

/-- The rounds of `Decrypt`, each key addition, inverse permute-substitute, diffusion (R103). -/
def decryptRounds (rk : BitVec 2 → Block) (t : Memory) : List (BitVec 2) → Block → Option Block
  | [], x => some x
  | r :: rs, x =>
    match ipSub (x ^^^ rk r) t with
    | some y => decryptRounds rk t rs (diff y)
    | none => none

/-- `Decrypt(C, RK, INVSBOX)` (R103). -/
def decrypt (c : Block) (rk : BitVec 2 → Block) (t : Memory) : Option Block :=
  match decryptRounds rk t Config.rounds.reverse c with
  | some x => some (x ^^^ rk 0#2)
  | none => none

end Sys2Proof.Machine
end

