-- ==== Sys2Proof/Machine/Commands.lean ====
section
/-! DEFINITION. The meanings of the six commands and of an illegal opcode (spec/46_commands.md). -/

namespace Sys2Proof.Machine

/-- The controller in `CHECK` with a packet latched (R106): the state the checks of R115 look at. -/
def State.checking (s : State) (opcode : Byte) (payload : List Byte) : State :=
  { s.receive opcode payload with phase := .check }

/-- Checks 2 and 3 of R115 in their order (the opcode, check 1, has been decoded), then the command's own work on the
state whose `INB` is `X = pack(payload)` (check 4). -/
def checkedCommand (opcode : Byte) (payload : List Byte) (lengthError : Status) (needsKey : Bool)
    (work : State → Host.Outcome State Fault Refusal) (s : State) : Host.Outcome State Fault Refusal :=
  if payload.length ≠ Config.blockBytes then .next ((s.checking opcode payload).raise lengthError)
  else if s.lacksKey needsKey then .next ((s.checking opcode payload).raise .noKey)
  else work (s.checking opcode payload)

/-- Run a sequence, then `RESP` with the block in `ST`. -/
def respondBlock (ops : List Op) (s : State) : Host.Outcome State Fault Refusal :=
  match runOps ops s with
  | .ok s' => .next (s'.respond (some s'.st))
  | .error f => .fault f

/-- `Construct` (R105), then `RESP` without data (R116, decision D25). -/
def constructAndRespond (s : State) : Host.Outcome State Fault Refusal :=
  match runOps constructOps s with
  | .ok s' => .next (s'.setKeyValid.respond none)
  | .error f => .fault f

/-- `KEY` (R116). -/
def execKey (payload : List Byte) (s : State) : Host.Outcome State Fault Refusal :=
  checkedCommand opcodeKey payload .invalidKeyLength false constructAndRespond s

/-- `ENC` (R117). -/
def execEnc (payload : List Byte) (s : State) : Host.Outcome State Fault Refusal :=
  checkedCommand opcodeEnc payload .invalidBlockLength true (respondBlock encryptOps) s

/-- `DEC` (R118). -/
def execDec (payload : List Byte) (s : State) : Host.Outcome State Fault Refusal :=
  checkedCommand opcodeDec payload .invalidBlockLength true (respondBlock decryptOps) s

/-- `DIFF` (R119): needs no key (decision D22). -/
def execDiff (payload : List Byte) (s : State) : Host.Outcome State Fault Refusal :=
  checkedCommand opcodeDiff payload .invalidBlockLength false (respondBlock diffOps) s

/-- `PSUB` (R120). -/
def execPsub (payload : List Byte) (s : State) : Host.Outcome State Fault Refusal :=
  checkedCommand opcodePsub payload .invalidBlockLength true (respondBlock psubOps) s

/-- `IPSUB` (R121). -/
def execIpsub (payload : List Byte) (s : State) : Host.Outcome State Fault Refusal :=
  checkedCommand opcodeIpsub payload .invalidBlockLength true (respondBlock ipsubOps) s

/-- Any other opcode (R122, R134): the payload is received, counted and dropped; `IllegalCommand` whatever its length
and whether or not the engine is keyed. -/
def illegalCommand (opcode : Byte) (payload : List Byte) (s : State) : State :=
  (s.checking opcode payload).raise .illegalCommand

end Sys2Proof.Machine
end

