-- ==== Sys2Proof/Machine/Dispatch.lean ====
section
/-! DEFINITION. One arm per command, each one call of its meaning in Machine/Commands.lean. -/

namespace Sys2Proof.Machine

def exec (i : Instr) (s : State) : Host.Outcome State Fault Refusal :=
  match i with
  | .key payload => Sys2Proof.Machine.execKey payload s
  | .enc payload => Sys2Proof.Machine.execEnc payload s
  | .dec payload => Sys2Proof.Machine.execDec payload s
  | .diff payload => Sys2Proof.Machine.execDiff payload s
  | .psub payload => Sys2Proof.Machine.execPsub payload s
  | .ipsub payload => Sys2Proof.Machine.execIpsub payload s

end Sys2Proof.Machine
end

