-- ==== Sys2Proof/Machine/Port.lean ====
section
/-! DEFINITION. The framing of the command stream (spec/30_encoding.md R45, R46): what the port meets next in the
host's events, and where the next packet is placed. -/

namespace Sys2Proof.Machine

/-- What the port meets next. -/
inductive PortEvent where
  /-- The host does nothing more, and no packet is in progress: the engine waits, idle or with its response offered. -/
  | quiet
  /-- The host takes one response byte; `rest` is what it does next. -/
  | taken (rest : List HostEvent)
  /-- `rst` is asserted while no packet is in progress. -/
  | reset (rest : List HostEvent)
  /-- `rst` is asserted in the middle of a packet, which is abandoned (R153). -/
  | resetInPacket (rest : List HostEvent)
  /-- The host has stopped in the middle of a packet (R159): the bytes that have come. -/
  | waiting (opcode : Byte) (payload : List Byte)
  /-- A whole packet, up to and including its first byte with `c_last = 1` (R45). -/
  | packet (opcode : Byte) (payload : List Byte) (rest : List HostEvent)
  deriving DecidableEq, Repr

/-- The rest of a packet whose opcode byte and first payload bytes have come. A `take` in the middle of a packet finds
no response to take (R45: the previous one has been sent) and does nothing. Log entry 9. -/
def framePayload (opcode : Byte) (payload : List Byte) : List HostEvent → PortEvent
  | [] => .waiting opcode payload
  | .take :: rest => framePayload opcode payload rest
  | .rst :: rest => .resetInPacket rest
  | .cmd b :: rest =>
    if b.last then .packet opcode (payload ++ [b.data]) rest
    else framePayload opcode (payload ++ [b.data]) rest

/-- What the port meets next in the host's events. -/
def nextPortEvent : List HostEvent → PortEvent
  | [] => .quiet
  | .take :: rest => .taken rest
  | .rst :: rest => .reset rest
  | .cmd b :: rest => if b.last then .packet b.data [] rest else framePayload b.data [] rest

/-- The engine takes a response byte's transfer off the host's events. -/
def State.takeOne (s : State) (rest : List HostEvent) : State := { s.transfer with hostIn := rest }

/-- The engine waiting in `RECV` for the rest of a packet (R159): the port's registers hold what has come; the packet's
bytes stay at the front of `hostIn` until it is complete. Log entry 7. -/
def State.await (s : State) (opcode : Byte) (payload : List Byte) : State := s.drain.receive opcode payload

/-- The packet of `nbits` bits `w` (numbered as the opcode table numbers them) placed as the next the host sends. -/
def State.offerWord (s : State) (nbits w : Nat) : State :=
  { s with hostIn := packetEvents (tablePacket nbits w) ++ s.hostIn }

end Sys2Proof.Machine
end

