-- ==== Sys2Proof/Machine/Step.lean ====
section
/-! DEFINITION. One step of the engine: what it does with the next thing it meets at its port (spec/00_scope.md R9,
spec/30_encoding.md R45). A whole command packet is one step, from the state before the command to the state after it
with its response. -/

namespace Sys2Proof.Machine

def step (s : State) : Host.Outcome State Fault Refusal :=
  match nextPortEvent s.hostIn with
  | .quiet => .next s
  | .taken rest => .next (s.takeOne rest)
  | .reset rest => .next (s.resetEvent rest)
  | .resetInPacket rest => .next (s.drain.resetEvent rest)
  | .waiting opcode payload => .next (s.await opcode payload)
  | .packet opcode payload rest =>
    match decode (opcode :: payload) with
    | .ok i => exec i (s.accept rest)
    | .error _ => .next (illegalCommand opcode payload (s.accept rest))

/-- `s` with the packet whose bits are `w` as the next the host sends, so that the very next step runs it. Log
entries 6 and 17. -/
def State.withFetchWord (s : State) (nbits w : Nat) : State := s.offerWord nbits w

end Sys2Proof.Machine
end

