-- ==== Sys2Proof/Safety.lean ====
section
/-! DEFINITION. The terms claims about the engine are stated in: what a command leaves alone, what a response looks
like, when an engine holds the instance of a key, and which values a host can come to see. -/

namespace Sys2Proof

open Sys2Proof.Machine

/-- Two tables agree cell by cell (a cell that holds no value agrees with one that holds none). -/
def SameCells (t u : Memory) : Prop := ∀ b : Byte, memRead t b = memRead u b

/-- Every cell of a table holds a value. -/
def tableFull (t : Memory) : Bool := byteValues.all fun b => (memRead t b).isSome

/-- `inv` is the inverse table of `fwd`, both ways, and both are full (spec/42_sbox_generator.md R75). -/
def InverseTables (fwd inv : Memory) : Prop :=
  (∀ b : Byte, ∃ v, memRead fwd b = some v ∧ memRead inv v = some b) ∧
  (∀ v : Byte, ∃ b, memRead inv v = some b ∧ memRead fwd b = some v)

/-- The architectural state of `t` is that of `s`: `KEYVALID`, `RK` and every cell of both tables (spec/10_state.md
R10, R21). -/
def SameInstance (s t : State) : Prop :=
  t.keyValid = s.keyValid ∧ t.rk = s.rk ∧ t.sbox = s.sbox ∧ t.invsbox = s.invsbox

/-- `t` answers with the response `status`, `data`, and neither takes from the host's events nor sends on its own. -/
def AnswersWith (s t : State) (status : Status) (data : Option Block) : Prop :=
  t.rspPending = responseBeats status data ∧ t.hostIn = s.hostIn ∧ t.rspSent = s.rspSent

/-- The tables of key `k`: items 1 and 2 of spec/10_state.md R20. -/
def HoldsInstance (s : State) (k : Key) : Prop :=
  s.rk = roundKeys k ∧ SameCells s.sbox (sboxGen k).1 ∧ SameCells s.invsbox (sboxGen k).2

/-- The invariant of the architectural state: the tables keep their canonical form, and a keyed engine holds the
instance of some key (R20). -/
def InstanceInv (s : State) : Prop :=
  s.sbox.wf = true ∧ s.invsbox.wf = true ∧ (s.keyValid = true → ∃ k, HoldsInstance s k)

/-- The invariant of the port between steps: no response is pending and the controller is `IDLE` or `RECV`, or what is
left of one response packet is pending and the controller is in `RESP` or `ERR` (spec/45_round_controller.md R106,
spec/30_encoding.md R45, R47). -/
def PortInv (s : State) : Prop :=
  (s.rspPending = [] ∧ (s.phase = .idle ∨ s.phase = .recv)) ∨
  (∃ bytes : List Byte, s.rspPending = beatsOf bytes ∧ 0 < bytes.length ∧ bytes.length ≤ 17 ∧
    (s.phase = .resp ∨ s.phase = .err))

/-- What a host can ever come to see agrees in `s` and `t`: the flag, the port, and the tables and round keys of a
KEYED engine. The unspecified values (tables and `RK` of an unkeyed engine, all scratch registers) may differ
(spec/10_state.md R15, R22, R23). -/
def VisiblyEqual (s t : State) : Prop :=
  s.keyValid = t.keyValid ∧
  (s.keyValid = true → s.rk = t.rk ∧ SameCells s.sbox t.sbox ∧ SameCells s.invsbox t.invsbox) ∧
  s.hostIn = t.hostIn ∧ s.rspPending = t.rspPending ∧ s.rspSent = t.rspSent ∧ s.phase = t.phase

/-- The opcode bytes of spec/30_encoding.md R49. -/
def legalOpcodes : List Byte := [0x01#8, 0x02#8, 0x03#8, 0x10#8, 0x11#8, 0x12#8]

/-- The opcode bytes whose commands need a key (R49, column "needs key"). -/
def keyedOpcodes : List Byte := [0x02#8, 0x03#8, 0x11#8, 0x12#8]

/-- The status of the first check of spec/46_commands.md R115 that fails for a packet, `ok` where none does. -/
def expectedStatus (opcode : Byte) (n : Nat) (keyValid : Bool) : Status :=
  if opcode ∉ legalOpcodes then .illegalCommand
  else if n ≠ 16 then (if opcode = 0x01#8 then .invalidKeyLength else .invalidBlockLength)
  else if opcode ∈ keyedOpcodes ∧ keyValid = false then .noKey
  else .ok

/-- The block commands: every command but `KEY`. -/
def isBlockCommand : Instr → Bool
  | .key _ => false
  | .enc _ => true
  | .dec _ => true
  | .diff _ => true
  | .psub _ => true
  | .ipsub _ => true

end Sys2Proof
end

