-- ==== Sys2Proof/Certificates/Slice0/Obligations.lean ====
section
/-! DEFINITION. The statements for the provers. Each docstring names the rules of spec/ it formalises and what of the
model's own choices it touches. -/

open Sys2Proof Sys2Proof.Machine

/-! ### Encoding and the port -/

/-- R49, R50 (spec/30_encoding.md), R53's worked example: sample packets decode to the command their opcode byte
stands for, with the payload byte for byte, and sample illegal opcode bytes decode to none. -/
def Obligations.SamplePacketsDecode : Prop :=
  decode [0x02, 0x10, 0x11, 0x12, 0x13, 0x14, 0x15, 0x16, 0x17, 0x18, 0x19, 0x1a, 0x1b, 0x1c, 0x1d, 0x1e, 0x1f] =
    .ok (.enc [0x10, 0x11, 0x12, 0x13, 0x14, 0x15, 0x16, 0x17, 0x18, 0x19, 0x1a, 0x1b, 0x1c, 0x1d, 0x1e, 0x1f]) ∧
  decode [0x01, 0xaa] = .ok (.key [0xaa]) ∧
  decode [0x03] = .ok (.dec []) ∧
  decode [0x10, 0x00, 0xff] = .ok (.diff [0x00, 0xff]) ∧
  decode [0x11, 0x7f] = .ok (.psub [0x7f]) ∧
  decode [0x12, 0x80, 0x01] = .ok (.ipsub [0x80, 0x01]) ∧
  decode [0x00] = .error (.illegalOpcode 0x00) ∧
  decode [0x04, 0x00] = .error (.illegalOpcode 0x04) ∧
  decode [0x13] = .error (.illegalOpcode 0x13)

/-- R46, R49: a packet sent through the port is framed as one packet and decodes to the command it encodes, for every
command and every payload of every length, whatever the host does after it; and the only bytes that decode to a
command are its encoding. -/
def Obligations.PacketRoundTrip : Prop :=
  (∀ (i : Instr) (after : List HostEvent), ∃ opcode payload,
    nextPortEvent (packetEvents (encode i) ++ after) = .packet opcode payload after ∧
    decode (opcode :: payload) = .ok i) ∧
  (∀ (bytes : List Byte) (i : Instr), decode bytes = .ok i → bytes = encode i)

/-- R9, R45: where the port meets a whole packet whose bytes decode to a command, the step is `exec` of that command,
on the state that has taken the packet off the stream after the pending response has been transferred. That the
transfer happens inside this step is the model's choice (log entry 8). -/
def Obligations.StepRunsDecodedCommand : Prop :=
  ∀ (s : State) (opcode : Byte) (payload : List Byte) (rest : List HostEvent) (i : Instr),
    nextPortEvent s.hostIn = .packet opcode payload rest → decode (opcode :: payload) = .ok i →
    step s = exec i (s.accept rest) ∧
    (s.accept rest).hostIn = rest ∧ (s.accept rest).rspPending = [] ∧
    (s.accept rest).rspSent = s.rspSent ++ s.rspPending ∧ SameInstance s (s.accept rest)

/-- R50, R122, R134: every opcode byte outside R49, with any payload, keyed or not, is answered with the one byte `04`
and changes nothing else. That the response to the command before it leaves inside this step is the model's choice
(R45, log entry 8). -/
def Obligations.IllegalOpcodeAnswered : Prop :=
  ∀ (s : State) (opcode : Byte) (payload : List Byte) (rest : List HostEvent),
    opcode ∉ [0x01#8, 0x02#8, 0x03#8, 0x10#8, 0x11#8, 0x12#8] →
    s.hostIn = packetEvents (opcode :: payload) ++ rest →
    ∃ t, step s = .next t ∧ t.rspPending = [⟨0x04, true⟩] ∧ SameInstance s t ∧ t.hostIn = rest ∧
      t.rspSent = s.rspSent ++ s.rspPending

/-- R131 to R135: the status a packet is answered with is that of the first check that fails, in the order illegal
opcode, length, key; `OK` where none does. The premise `InstanceInv` rules out the states no run reaches in which a
keyed engine has a table cell without a value. -/
def Obligations.StatusOfFirstFailingCheck : Prop :=
  ∀ (s : State) (opcode : Byte) (payload : List Byte) (rest : List HostEvent),
    InstanceInv s → s.hostIn = packetEvents (opcode :: payload) ++ rest →
    ∃ t bs, step s = .next t ∧
      t.rspPending.map Beat.data = statusCode (expectedStatus opcode payload.length s.keyValid) :: bs

/-- R137: a command that raises leaves the architectural state as it was and answers with its one status byte; the
response to the command before it has been sent and nothing of the host's later events has been touched. That the
earlier response leaves inside this step is the model's choice (R45, log entry 8). -/
def Obligations.ErrorsChangeNothing : Prop :=
  ∀ (s : State) (opcode : Byte) (payload : List Byte) (rest : List HostEvent),
    s.hostIn = packetEvents (opcode :: payload) ++ rest →
    expectedStatus opcode payload.length s.keyValid ≠ .ok →
    ∃ t, step s = .next t ∧ SameInstance s t ∧
      t.rspPending = [⟨statusCode (expectedStatus opcode payload.length s.keyValid), true⟩] ∧
      t.rspSent = s.rspSent ++ s.rspPending ∧ t.hostIn = rest

/-- R47: a response packet is 1 byte, or 17 bytes exactly when the command is a block command and the status is `OK`;
`last` is on its last transfer only; the first byte is a status code of R52. The packet is that of the command's status,
with data exactly where it is 17 bytes long; and the bytes on the wire are, for each status, the literal of R52, followed
for data by the bytes of the block, byte 0 first. -/
def Obligations.ResponseShape : Prop :=
  (∀ (s : State) (opcode : Byte) (payload : List Byte) (rest : List HostEvent),
    InstanceInv s → s.hostIn = packetEvents (opcode :: payload) ++ rest →
    ∃ t bytes, step s = .next t ∧ t.rspPending = beatsOf bytes ∧
      bytes.length = (if expectedStatus opcode payload.length s.keyValid = .ok ∧ opcode ≠ 0x01#8 then 17 else 1) ∧
      bytes.head? ∈ [some 0x00#8, some 0x01#8, some 0x02#8, some 0x03#8, some 0x04#8] ∧
      (∀ j < bytes.length, (t.rspPending[j]?).map Beat.last = some (decide (j + 1 = bytes.length))) ∧
      ∃ data, t.rspPending = responseBeats (expectedStatus opcode payload.length s.keyValid) data ∧
        (data.isSome = true ↔ bytes.length = 17)) ∧
  responseBeats .ok none = [⟨0x00#8, true⟩] ∧
  responseBeats .invalidKeyLength none = [⟨0x01#8, true⟩] ∧
  responseBeats .invalidBlockLength none = [⟨0x02#8, true⟩] ∧
  responseBeats .noKey none = [⟨0x03#8, true⟩] ∧
  responseBeats .illegalCommand none = [⟨0x04#8, true⟩] ∧
  (∀ x : Block, (responseBeats .ok (some x)).map Beat.data = 0x00#8 :: unpack x) ∧
  (∀ (x : Block) (i : Lane), (unpack x)[i.val]? = some (x.extractLsb' (8 * i.val) 8))

/-- R45: the host takes one response byte; it is the oldest one pending, it leaves on the response stream, and nothing
architectural changes. The phases are the model's reading of R106 (log entry 10). A take with no response pending
changes nothing but the host's list, and a take in the middle of a packet does not change how the packet is framed: the
model's reading of R45 (log entry 9). -/
def Obligations.TakeTransfersOneByte : Prop :=
  (∀ (s : State) (b : Beat) (bs : List Beat) (rest : List HostEvent),
    s.hostIn = .take :: rest → s.rspPending = b :: bs →
    ∃ t, step s = .next t ∧ t.rspPending = bs ∧ t.rspSent = s.rspSent ++ [b] ∧ t.hostIn = rest ∧
      t.phase = (if bs = [] then .idle else s.phase) ∧ SameInstance s t) ∧
  (∀ (s : State) (rest : List HostEvent), s.hostIn = .take :: rest → s.rspPending = [] →
    step s = .next { s with hostIn := rest }) ∧
  (∀ (opcode : Byte) (payload : List Byte) (rest : List HostEvent),
    nextPortEvent (.cmd ⟨opcode, false⟩ :: payload.map (fun b => .cmd ⟨b, false⟩) ++ .take :: rest) =
      nextPortEvent (.cmd ⟨opcode, false⟩ :: payload.map (fun b => .cmd ⟨b, false⟩) ++ rest))

/-- R159, R51: a packet whose last byte has not come leaves the engine in `RECV` with the architectural state
unchanged, the opcode byte in `OPC`, the payload count in `LEN` (saturating at 17) and the payload bytes that have come
in their lanes of `INB`; and there it stays, however many steps are taken. That the bytes stay in the host's list until
the packet is complete is the model's choice (log entry 7). -/
def Obligations.StalledPacketWaits : Prop :=
  ∀ (s : State) (opcode : Byte) (payload : List Byte),
    s.hostIn = .cmd ⟨opcode, false⟩ :: payload.map (fun b => .cmd ⟨b, false⟩) →
    ∃ t, step s = .next t ∧ SameInstance s t ∧ t.phase = .recv ∧ t.opc = opcode ∧
      t.len.toNat = min payload.length 17 ∧ (∀ i : Lane, (h : i.val < payload.length) → byteOf t.inb i = payload[i.val]) ∧
      t.hostIn = s.hostIn ∧ step t = .next t

/-- R48, R51: what the packet-assembly registers hold when a packet is complete. `LEN = 16` exactly for a payload of 16
bytes, and then `INB` is the packed operand; `LEN = 17` for every longer one. -/
def Obligations.PacketRegisters : Prop :=
  ∀ (s : State) (opcode : Byte) (payload : List Byte),
    (s.receive opcode payload).opc = opcode ∧
    (payload.length ≤ 16 → (s.receive opcode payload).len.toNat = payload.length) ∧
    (16 < payload.length → (s.receive opcode payload).len = 17#5) ∧
    ((s.receive opcode payload).len = 16#5 ↔ payload.length = 16) ∧
    (payload.length = 16 → (s.receive opcode payload).inb = pack payload)

/-- R6: packing and unpacking are inverse, and byte i of a packed block is the i-th wire byte and bits 8i+7..8i of the
integer. -/
def Obligations.PackUnpackInverse : Prop :=
  (∀ bytes : List Byte, bytes.length = 16 → unpack (pack bytes) = bytes) ∧
  (∀ x : Block, pack (unpack x) = x ∧ (unpack x).length = 16) ∧
  (∀ (bytes : List Byte) (i : Lane), bytes.length = 16 → bytes[i.val]? = some (byteOf (pack bytes) i)) ∧
  (∀ (x : Block) (i : Lane) (q : Nat), q < 8 → (byteOf x i).getLsbD q = x.getLsbD (8 * i.val + q))

/-! ### Reset -/

/-- R22: after reset the engine is unkeyed and idle, with no packet in progress and no response pending, and no cell of
either table holds a value. -/
def Obligations.ResetState : Prop :=
  State.reset.keyValid = false ∧ State.reset.phase = .idle ∧ State.reset.hostIn = [] ∧
  State.reset.rspPending = [] ∧ (∀ b, memRead State.reset.sbox b = none) ∧ (∀ b, memRead State.reset.invsbox b = none)

/-- R150, R153: asserting `rst`, at any time, leaves the engine unkeyed and idle with no response pending (what was
left of one is abandoned: nothing more of it is sent) and no cell of a table holding a value. That the cells
hold none is the model's choice among what R22 allows (log entry 5). -/
def Obligations.ResetEventAtAnyTime : Prop :=
  ∀ (s : State) (rest : List HostEvent), s.hostIn = .rst :: rest →
    ∃ t, step s = .next t ∧ t.keyValid = false ∧ t.phase = .idle ∧ t.rspPending = [] ∧ t.rspSent = s.rspSent ∧
      t.hostIn = rest ∧ (∀ b, memRead t.sbox b = none) ∧ (∀ b, memRead t.invsbox b = none)

/-- R153: `rst` in the middle of a packet abandons the command: it is never answered, and the engine is unkeyed and
idle with no response pending. That what was pending before the packet began leaves inside this step is the model's
choice (R45, log entry 8). -/
def Obligations.ResetAbandonsPacket : Prop :=
  ∀ (s : State) (opcode : Byte) (payload : List Byte) (rest : List HostEvent),
    s.hostIn = .cmd ⟨opcode, false⟩ :: payload.map (fun b => .cmd ⟨b, false⟩) ++ .rst :: rest →
    ∃ t, step s = .next t ∧ t.keyValid = false ∧ t.phase = .idle ∧ t.rspPending = [] ∧
      t.rspSent = s.rspSent ++ s.rspPending ∧ t.hostIn = rest

/-! ### The key schedule -/

/-- R61: `RoundKey(K, i)` bit by bit and as arithmetic. -/
def Obligations.RoundKeyBits : Prop :=
  ∀ (k : Block) (i : Fin 8),
    (∀ p < 128, (roundKey k i).getLsbD p =
      (if Config.shamt[i] ≤ p then k.getLsbD (p - Config.shamt[i]) else false)) ∧
    (roundKey k i).toNat = k.toNat * 2 ^ Config.shamt[i] % 2 ^ 128

/-- R60, R62: `KS` writes `RoundKey(K, i)` to every `RK[i]`, with `SHAMT[0] = 0` and `SHAMT[i] = 2^(i-1)`; nothing
architectural but `RK` changes, and what `RK` held before does not matter. -/
def Obligations.KeyScheduleWritesAllRoundKeys : Prop :=
  (∀ (s : State) (i : Fin 8), (opKs s).rk[i] = roundKey s.inb i) ∧
  (∀ s : State, (opKs s).keyValid = s.keyValid ∧ (opKs s).sbox = s.sbox ∧ (opKs s).invsbox = s.invsbox) ∧
  Config.shamt[0] = 0 ∧ (∀ i : Fin 8, 0 < i.val → Config.shamt[i] = 2 ^ (i.val - 1))

/-- R64: the schedule is linear over XOR; the low `SHAMT[i]` bits of a round key are 0; two keys that differ only in
bit 127 have the same `RK[1..7]` and differ in `RK[0]`; two keys that differ only in their top 4 bits have the same
`RK[3]`; `RK[0]` is the key, so it determines every round key. -/
def Obligations.KeyScheduleLinear : Prop :=
  (∀ (k k' : Block) (i : Fin 8), roundKey (k ^^^ k') i = roundKey k i ^^^ roundKey k' i) ∧
  (∀ (k : Block) (i : Fin 8) (p : Nat), p < Config.shamt[i] → (roundKey k i).getLsbD p = false) ∧
  (∀ (k : Block) (i : Fin 8), i ≠ 0 → roundKey (k ^^^ (1#128 <<< 127)) i = roundKey k i) ∧
  (∀ k : Block, roundKey (k ^^^ (1#128 <<< 127)) 0 ≠ roundKey k 0) ∧
  (∀ (k d : Block), (∀ p < 124, d.getLsbD p = false) → roundKey (k ^^^ d) 3 = roundKey k 3) ∧
  (∀ k : Block, (roundKeys k)[0] = k)

/-! ### The S-box generator -/

/-- R68: the seed is the fold of the key's halves, or `SEED_FIX` exactly when the halves are equal, so it is never
zero; two keys with the same fold get the same two tables; `SEED` writes it to `PRNG`. -/
def Obligations.SeedIsTheFold : Prop :=
  (∀ k : Block, (k.extractLsb' 0 64 = k.extractLsb' 64 64 → prngSeed k = 0x9E3779B97F4A7C15#64) ∧
    (k.extractLsb' 0 64 ≠ k.extractLsb' 64 64 → prngSeed k = k.extractLsb' 0 64 ^^^ k.extractLsb' 64 64)) ∧
  (∀ k : Block, prngSeed k ≠ 0#64) ∧
  (∀ k k' : Block, k.extractLsb' 0 64 ^^^ k.extractLsb' 64 64 = k'.extractLsb' 0 64 ^^^ k'.extractLsb' 64 64 →
    sboxGen k = sboxGen k') ∧
  (∀ s : State, (opSeed s).prng = prngSeed s.inb)

/-- R69: `Step` is a bijection on 64-bit values that fixes 0, so it takes no other value to 0. -/
def Obligations.GeneratorStepBijective : Prop :=
  Function.Bijective prngStep ∧ prngStep 0#64 = 0#64 ∧ ∀ x, x ≠ 0#64 → prngStep x ≠ 0#64

/-- R68 to R70, the examples of the rules: the seed, the first two steps and the first two draws for the key
`00..0f`. -/
def Obligations.GeneratorExamples : Prop :=
  prngSeed 0x0f0e0d0c0b0a09080706050403020100#128 = 0x0808080808080808#64 ∧
  prngSeed 0#128 = 0x9E3779B97F4A7C15#64 ∧
  prngStep 0x0808080808080808#64 = 0x3f2d2d2d2f2b1a18#64 ∧
  prngStep 0x3f2d2d2d2f2b1a18#64 = 0xa80e203848a8ca2c#64 ∧
  prngDraw 0x3f2d2d2d2f2b1a18#64 = 0x3f#8 ∧ prngDraw 0xa80e203848a8ca2c#64 = 0xa8#8

/-- R71: after `SBINIT` every cell of `SBOX` holds its own index, whatever the table held before; nothing else
architectural changes. -/
def Obligations.IdentityFill : Prop :=
  ∀ s : State, (∀ b : Byte, memRead (opSbinit s).sbox b = some b) ∧ (opSbinit s).invsbox = s.invsbox ∧
    (opSbinit s).rk = s.rk ∧ (opSbinit s).keyValid = s.keyValid

/-- R72: one iteration of the swap loop exchanges the two drawn cells and no other, and a draw of i = j changes
nothing; the generator is stepped before each draw, first i, then j; no iteration
changes nothing; `SBSWAP` does exactly 65,000. -/
def Obligations.SwapIteration : Prop :=
  (∀ (t : Memory) (i j vi vj : Byte), memRead t i = some vi → memRead t j = some vj →
    ∀ b, memRead (swapCells t i j) b = (if b = i then some vj else if b = j then some vi else memRead t b)) ∧
  (∀ (t : Memory) (i vi : Byte), memRead t i = some vi → ∀ b, memRead (swapCells t i i) b = memRead t b) ∧
  (∀ (n : Nat) (x : BitVec 64) (t : Memory),
    swapLoop xs64 (n + 1) x t =
      swapLoop xs64 n (prngStep (prngStep x))
        (swapCells t (prngDraw (prngStep x)) (prngDraw (prngStep (prngStep x))))) ∧
  (∀ (x : BitVec 64) (t : Memory), swapLoop xs64 0 x t = (x, t)) ∧
  (∀ s : State, ((opSbswap s).prng, (opSbswap s).sbox) = swapLoop xs64 65000 s.prng s.sbox)

/-- R75: for EVERY generator and every number of swaps the forward table is a bijection and the second table is its
inverse, both ways. -/
def Obligations.TablesInverseForEveryGenerator : Prop :=
  ∀ (σ : Type) (g : Prng σ) (n : Nat) (k : Block), InverseTables (sboxGenWith g n k).1 (sboxGenWith g n k).2

/-! ### Permutation and substitution -/

/-- R80, R81: the two constant tables, their closed forms, and that they are inverse. -/
def Obligations.PermutationTables : Prop :=
  (∀ i : Lane, (permRead i).val = (5 * i.val + 3) % 16) ∧
  (∀ d : Lane, (invPermRead d).val = (13 * d.val + 9) % 16) ∧
  (∀ i : Lane, invPermRead (permRead i) = i) ∧ (∀ d : Lane, permRead (invPermRead d) = d) ∧
  (∀ i : Lane, permRead i ≠ i) ∧ permRead (permRead 0) = 2

/-- R82: on a full table `PSub` answers a block whose lane `PERM[i]` is the table's value for byte i of the source;
equivalently its lane d is the table's value for byte `INVPERM[d]`. -/
def Obligations.PSubLanes : Prop :=
  ∀ (x : Block) (t : Memory), tableFull t = true →
    ∃ y, pSub x t = some y ∧ (∀ i : Lane, some (byteOf y (permRead i)) = memRead t (byteOf x i)) ∧
      (∀ d : Lane, some (byteOf y d) = memRead t (byteOf x (invPermRead d)))

/-- R83: the same for `IPSub` with `INVPERM`. -/
def Obligations.IPSubLanes : Prop :=
  ∀ (x : Block) (t : Memory), tableFull t = true →
    ∃ y, ipSub x t = some y ∧ (∀ i : Lane, some (byteOf y (invPermRead i)) = memRead t (byteOf x i)) ∧
      (∀ d : Lane, some (byteOf y d) = memRead t (byteOf x (permRead d)))

/-- R84: with a matching pair of tables each layer undoes the other, for every block. -/
def Obligations.LayersInverse : Prop :=
  ∀ (fwd inv : Memory), InverseTables fwd inv → ∀ x : Block,
    (∃ y, pSub x fwd = some y ∧ ipSub y inv = some x) ∧ (∃ z, ipSub x inv = some z ∧ pSub z fwd = some x)

/-! ### Diffusion -/

/-- R90, R91: the masks bit by bit; each has 64 bits set, has no bit in common with its complement and leaves none out,
and the two are shifted exactly onto one another. -/
def Obligations.MasksPartition : Prop :=
  ∀ g : Gran, (∀ p < 128, (mask g).getLsbD p = decide (p / g.width % 2 = 0)) ∧
    mask g &&& ~~~mask g = 0#128 ∧ mask g ||| ~~~mask g = BitVec.allOnes 128 ∧
    (List.range 128).countP (fun p => (mask g).getLsbD p) = 64 ∧
    (List.range 128).countP (fun p => (~~~mask g).getLsbD p) = 64 ∧
    mask g <<< g.width = ~~~mask g ∧ ~~~mask g >>> g.width = mask g

/-- R92: `swap_g` bit by bit; it is an involution and any two commute. -/
def Obligations.GroupSwapBits : Prop :=
  (∀ (g : Gran) (x : Block) (p : Nat), p < 128 → (swapG g x).getLsbD p = x.getLsbD (p ^^^ g.width)) ∧
  (∀ (g : Gran) (x : Block), swapG g (swapG g x) = x) ∧
  (∀ (g h : Gran) (x : Block), swapG g (swapG h x) = swapG h (swapG g x))

/-- R94: each output bit of `Diff` is the XOR of the seven input bits one binary digit of the index away. -/
def Obligations.DiffBits : Prop :=
  ∀ (x : Block) (p : Nat), p < 128 →
    (diff x).getLsbD p =
      (x.getLsbD (p ^^^ 1) ^^ x.getLsbD (p ^^^ 2) ^^ x.getLsbD (p ^^^ 4) ^^ x.getLsbD (p ^^^ 8) ^^
        x.getLsbD (p ^^^ 16) ^^ x.getLsbD (p ^^^ 32) ^^ x.getLsbD (p ^^^ 64))

/-- R95: `Diff` is its own inverse; and, by the count its proof rests on, the XOR of any odd number of group swaps is
its own inverse while the XOR of any even number squares to the zero map. -/
def Obligations.DiffSelfInverse : Prop :=
  (∀ x : Block, diff (diff x) = x) ∧
  (∀ (terms : List Gran) (x : Block),
    diffWith terms (diffWith terms x) = if terms.length % 2 = 1 then x else 0#128)

/-- R96: `Diff` is linear over XOR and a bijection. -/
def Obligations.DiffLinearBijection : Prop :=
  (∀ x y : Block, diff (x ^^^ y) = diff x ^^^ diff y) ∧ diff 0#128 = 0#128 ∧ Function.Bijective diff

/-! ### The commands -/

/-- R116, with R105: a `KEY` of 16 bytes answers `OK` without data and leaves the whole instance of its key: every
round key, every cell of both tables, `KEYVALID = 1`. Any other length answers `InvalidKeyLength` and leaves the engine
as it was, keyed or unkeyed. -/
def Obligations.KeyCommand : Prop :=
  ∀ (p : List Byte) (s : State),
    encode (.key p) = 0x01 :: p ∧
    (p.length = 16 → ∃ t, exec (.key p) s = .next t ∧ AnswersWith s t .ok none ∧ t.keyValid = true ∧
      (∀ i : Fin 8, t.rk[i] = roundKey (pack p) i) ∧
      SameCells t.sbox (sboxGen (pack p)).1 ∧ SameCells t.invsbox (sboxGen (pack p)).2) ∧
    (p.length ≠ 16 → ∃ t, exec (.key p) s = .next t ∧ AnswersWith s t .invalidKeyLength none ∧ SameInstance s t)

/-- R117, with the steps of R102 written out. The premise `tableFull` on the success clause rules out states no run
reaches (`Obligations.InstanceInvariantKept`). -/
def Obligations.EncCommand : Prop :=
  ∀ (p : List Byte) (s : State),
    encode (.enc p) = 0x02 :: p ∧
    (p.length ≠ 16 → ∃ t, exec (.enc p) s = .next t ∧ AnswersWith s t .invalidBlockLength none ∧ SameInstance s t) ∧
    (p.length = 16 → s.keyValid = false →
      ∃ t, exec (.enc p) s = .next t ∧ AnswersWith s t .noKey none ∧ SameInstance s t) ∧
    (p.length = 16 → s.keyValid = true → tableFull s.sbox = true →
      ∃ y1 y2 y3 t, pSub (diff (pack p ^^^ s.rk[0])) s.sbox = some y1 ∧
        pSub (diff (y1 ^^^ s.rk[1])) s.sbox = some y2 ∧ pSub (diff (y2 ^^^ s.rk[2])) s.sbox = some y3 ∧
        exec (.enc p) s = .next t ∧ AnswersWith s t .ok (some (y3 ^^^ s.rk[3])) ∧ SameInstance s t)

/-- R118, with the steps of R103 written out. -/
def Obligations.DecCommand : Prop :=
  ∀ (p : List Byte) (s : State),
    encode (.dec p) = 0x03 :: p ∧
    (p.length ≠ 16 → ∃ t, exec (.dec p) s = .next t ∧ AnswersWith s t .invalidBlockLength none ∧ SameInstance s t) ∧
    (p.length = 16 → s.keyValid = false →
      ∃ t, exec (.dec p) s = .next t ∧ AnswersWith s t .noKey none ∧ SameInstance s t) ∧
    (p.length = 16 → s.keyValid = true → tableFull s.invsbox = true →
      ∃ z3 z2 z1 t, ipSub (pack p ^^^ s.rk[3]) s.invsbox = some z3 ∧
        ipSub (diff z3 ^^^ s.rk[2]) s.invsbox = some z2 ∧ ipSub (diff z2 ^^^ s.rk[1]) s.invsbox = some z1 ∧
        exec (.dec p) s = .next t ∧ AnswersWith s t .ok (some (diff z1 ^^^ s.rk[0])) ∧ SameInstance s t)

/-- R119: `DIFF` answers `Diff` of its operand in every state, keyed or not, and never `NoKey`; two in a row give the
operand back. -/
def Obligations.DiffCommand : Prop :=
  ∀ (p : List Byte) (s : State),
    encode (.diff p) = 0x10 :: p ∧
    (p.length = 16 → ∃ t, exec (.diff p) s = .next t ∧ AnswersWith s t .ok (some (diff (pack p))) ∧ SameInstance s t ∧
      ∃ u, exec (.diff (unpack (diff (pack p)))) t = .next u ∧ AnswersWith t u .ok (some (pack p))) ∧
    (p.length ≠ 16 → ∃ t, exec (.diff p) s = .next t ∧ AnswersWith s t .invalidBlockLength none ∧ SameInstance s t)

/-- R120: `PSUB`, its result lane by lane (R82). -/
def Obligations.PsubCommand : Prop :=
  ∀ (p : List Byte) (s : State),
    encode (.psub p) = 0x11 :: p ∧
    (p.length ≠ 16 → ∃ t, exec (.psub p) s = .next t ∧ AnswersWith s t .invalidBlockLength none ∧ SameInstance s t) ∧
    (p.length = 16 → s.keyValid = false →
      ∃ t, exec (.psub p) s = .next t ∧ AnswersWith s t .noKey none ∧ SameInstance s t) ∧
    (p.length = 16 → s.keyValid = true → tableFull s.sbox = true →
      ∃ y t, exec (.psub p) s = .next t ∧ AnswersWith s t .ok (some y) ∧ SameInstance s t ∧
        ∀ i : Lane, some (byteOf y (permRead i)) = memRead s.sbox (byteOf (pack p) i))

/-- R121: `IPSUB`, its result lane by lane (R83); on a matching pair of tables it undoes `PSUB` and `PSUB` undoes it. -/
def Obligations.IpsubCommand : Prop :=
  ∀ (p : List Byte) (s : State),
    encode (.ipsub p) = 0x12 :: p ∧
    (p.length ≠ 16 → ∃ t, exec (.ipsub p) s = .next t ∧ AnswersWith s t .invalidBlockLength none ∧ SameInstance s t) ∧
    (p.length = 16 → s.keyValid = false →
      ∃ t, exec (.ipsub p) s = .next t ∧ AnswersWith s t .noKey none ∧ SameInstance s t) ∧
    (p.length = 16 → s.keyValid = true → tableFull s.invsbox = true →
      ∃ y t, exec (.ipsub p) s = .next t ∧ AnswersWith s t .ok (some y) ∧ SameInstance s t ∧
        ∀ i : Lane, some (byteOf y (invPermRead i)) = memRead s.invsbox (byteOf (pack p) i)) ∧
    (p.length = 16 → s.keyValid = true → InverseTables s.sbox s.invsbox →
      (∃ y t u, exec (.psub p) s = .next t ∧ AnswersWith s t .ok (some y) ∧
        exec (.ipsub (unpack y)) t = .next u ∧ AnswersWith t u .ok (some (pack p))) ∧
      (∃ y t u, exec (.ipsub p) s = .next t ∧ AnswersWith s t .ok (some y) ∧
        exec (.psub (unpack y)) t = .next u ∧ AnswersWith t u .ok (some (pack p))))

/-- R21, the frame of the block commands: whatever the payload and the state, if `ENC`, `DEC`, `DIFF`, `PSUB` or `IPSUB`
gives a next state, then `KEYVALID`, `RK` and both tables are unchanged, every cell reads as before, the host's events
and what has been sent are untouched. -/
def Obligations.BlockCommandFrame : Prop :=
  ∀ (i : Instr) (s t : State), isBlockCommand i = true → exec i s = .next t →
    SameInstance s t ∧ (∀ b, memRead t.sbox b = memRead s.sbox b) ∧
    (∀ b, memRead t.invsbox b = memRead s.invsbox b) ∧ t.hostIn = s.hostIn ∧ t.rspSent = s.rspSent

/-- R107: a block command's answer does not depend on a block command before it. -/
def Obligations.BlockCommandsIndependent : Prop :=
  ∀ (i j : Instr) (s t u : State), isBlockCommand i = true → isBlockCommand j = true →
    exec i s = .next t → exec j s = .next u →
    ∃ v, exec j t = .next v ∧ v.rspPending = u.rspPending

/-- R76: two engines given the same key, in any two states, hold the same instance; and so does one engine given it
twice. -/
def Obligations.KeyDeterminesInstance : Prop :=
  ∀ (p : List Byte) (s s' : State), p.length = 16 →
    ∃ t t' u, exec (.key p) s = .next t ∧ exec (.key p) s' = .next t' ∧ exec (.key p) t = .next u ∧
      t.rk = t'.rk ∧ SameCells t.sbox t'.sbox ∧ SameCells t.invsbox t'.invsbox ∧
      u.rk = t.rk ∧ SameCells u.sbox t.sbox ∧ SameCells u.invsbox t.invsbox

/-- R12, R63: what `RK[4..7]` hold is not observable: two states that differ only there answer `ENC` and `DEC` alike. -/
def Obligations.UpperRoundKeysUnread : Prop :=
  ∀ (p : List Byte) (s : State) (rk' : Vector Block 8),
    (∀ i : Fin 8, i.val < 4 → rk'[i] = s.rk[i]) →
    (∀ t, exec (.enc p) s = .next t →
      ∃ u, exec (.enc p) { s with rk := rk' } = .next u ∧ u.rspPending = t.rspPending) ∧
    (∀ t, exec (.dec p) s = .next t →
      ∃ u, exec (.dec p) { s with rk := rk' } = .next u ∧ u.rspPending = t.rspPending)

/-- R31, who reaches which table: `ENC` and `PSUB` answer alike whatever `INVSBOX` holds, `DEC` and `IPSUB` whatever
`SBOX` holds, `DIFF` whatever both hold. -/
def Obligations.TablesReached : Prop :=
  ∀ (p : List Byte) (s : State) (m : Memory),
    (∀ t, exec (.enc p) s = .next t →
      ∃ u, exec (.enc p) { s with invsbox := m } = .next u ∧ u.rspPending = t.rspPending) ∧
    (∀ t, exec (.psub p) s = .next t →
      ∃ u, exec (.psub p) { s with invsbox := m } = .next u ∧ u.rspPending = t.rspPending) ∧
    (∀ t, exec (.dec p) s = .next t →
      ∃ u, exec (.dec p) { s with sbox := m } = .next u ∧ u.rspPending = t.rspPending) ∧
    (∀ t, exec (.ipsub p) s = .next t →
      ∃ u, exec (.ipsub p) { s with sbox := m } = .next u ∧ u.rspPending = t.rspPending) ∧
    (∀ t, exec (.diff p) s = .next t →
      ∃ u, exec (.diff p) { s with sbox := m, invsbox := m } = .next u ∧ u.rspPending = t.rspPending)

/-! ### The whole machine -/

/-- R104: on a keyed engine whose tables are those of a key, `DEC` of what `ENC` answered answers the plaintext, for
every 16-byte plaintext, and `ENC` of what `DEC` answered answers the ciphertext; also when the second command runs on
ANOTHER engine keyed with the same key. -/
def Obligations.EncryptDecryptRoundTrip : Prop :=
  ∀ (k : Block) (s s' : State) (p : List Byte),
    s.keyValid = true → HoldsInstance s k → s'.keyValid = true → HoldsInstance s' k → p.length = 16 →
    (∃ c t u, exec (.enc p) s = .next t ∧ AnswersWith s t .ok (some c) ∧
      exec (.dec (unpack c)) s' = .next u ∧ AnswersWith s' u .ok (some (pack p))) ∧
    (∃ x t u, exec (.dec p) s = .next t ∧ AnswersWith s t .ok (some x) ∧
      exec (.enc (unpack x)) s' = .next u ∧ AnswersWith s' u .ok (some (pack p)))

/-- R20: the invariant of the architectural state is kept by every step, from every state that has it. -/
def Obligations.InstanceInvariantKept : Prop :=
  ∀ s t : State, InstanceInv s → step s = .next t → InstanceInv t

/-- R106, R45, R47: between steps the port is at rest, waiting in a packet, or sending what is left of one response
packet. The exact phase while a response is being sent is the model's reading (log entry 10). -/
def Obligations.PortInvariantKept : Prop := ∀ s t : State, PortInv s → step s = .next t → PortInv t

/-- R22: both invariants hold after reset. -/
def Obligations.ResetMeetsInvariants : Prop := InstanceInv State.reset ∧ PortInv State.reset

/-- R11, R20, R21, R24: while an engine is keyed it holds the instance of the last key given it: a step either leaves
the whole instance as it is, or was the reset event and leaves the engine unkeyed, or was a successful `KEY`, and then
the instance is that of ITS key. -/
def Obligations.OnlyKeyAndResetChangeInstance : Prop :=
  ∀ s t : State, step s = .next t →
    SameInstance s t ∨
    (t.keyValid = false ∧ HostEvent.rst ∈ s.hostIn ∧
      ∃ rest, nextPortEvent s.hostIn = .reset rest ∨ nextPortEvent s.hostIn = .resetInPacket rest) ∨
    (∃ payload rest, nextPortEvent s.hostIn = .packet 0x01#8 payload rest ∧ payload.length = 16 ∧
      t.keyValid = true ∧ HoldsInstance t (pack payload))

/-- R23, R157: from a state with the invariant every step completes: no command ever reads a cell that holds no value,
and every command packet is answered in its step. -/
def Obligations.EveryStepCompletes : Prop := ∀ s : State, InstanceInv s → ∃ t, step s = .next t

/-- R15, R23: no unspecified value is ever observed: two engines that agree on everything visible (the flag, the port,
and the tables and round keys IF KEYED), whatever their scratch registers and their unkeyed tables and round keys hold,
step alike and still agree on everything visible. It holds for every value of the free values. -/
def Obligations.UnspecifiedValuesUnobservable : Prop :=
  ∀ s t : State, VisiblyEqual s t →
    (∃ s' t', step s = .next s' ∧ step t = .next t' ∧ VisiblyEqual s' t') ∨
    (∃ f, step s = .fault f ∧ step t = .fault f)

/-- R45, R38: every command packet is answered by exactly one response, and responses leave in command order: when a
packet is taken, all of the earlier response has left, followed by nothing, and the new one is pending. That the earlier
response leaves inside this step is the model's choice (log entry 8). -/
def Obligations.OneResponsePerCommand : Prop :=
  ∀ (s t : State) (opcode : Byte) (payload : List Byte) (rest : List HostEvent),
    nextPortEvent s.hostIn = .packet opcode payload rest → step s = .next t →
    t.rspSent = s.rspSent ++ s.rspPending ∧ t.hostIn = rest ∧
    ∃ status data, t.rspPending = responseBeats status data
end

