-- ==== Sys2Proof/Laws/State.lean ====
section
/-! SUPPORT. One lemma per field per update of the state, so that no later proof unfolds a record update. -/

namespace Sys2Proof.Machine

variable (s : State)

/-! ### `State.receive` -/

@[simp] theorem State.receive_keyValid (o : Byte) (p : List Byte) : (s.receive o p).keyValid = s.keyValid := rfl
@[simp] theorem State.receive_rk (o : Byte) (p : List Byte) : (s.receive o p).rk = s.rk := rfl
@[simp] theorem State.receive_sbox (o : Byte) (p : List Byte) : (s.receive o p).sbox = s.sbox := rfl
@[simp] theorem State.receive_invsbox (o : Byte) (p : List Byte) : (s.receive o p).invsbox = s.invsbox := rfl
@[simp] theorem State.receive_st (o : Byte) (p : List Byte) : (s.receive o p).st = s.st := rfl
@[simp] theorem State.receive_prng (o : Byte) (p : List Byte) : (s.receive o p).prng = s.prng := rfl
@[simp] theorem State.receive_phase (o : Byte) (p : List Byte) : (s.receive o p).phase = .recv := rfl
@[simp] theorem State.receive_rnd (o : Byte) (p : List Byte) : (s.receive o p).rnd = s.rnd := rfl
@[simp] theorem State.receive_swapcnt (o : Byte) (p : List Byte) : (s.receive o p).swapcnt = s.swapcnt := rfl
@[simp] theorem State.receive_idx (o : Byte) (p : List Byte) : (s.receive o p).idx = s.idx := rfl
@[simp] theorem State.receive_inb (o : Byte) (p : List Byte) : (s.receive o p).inb = latchInb s.inb p := rfl
@[simp] theorem State.receive_len (o : Byte) (p : List Byte) : (s.receive o p).len = latchLen p := rfl
@[simp] theorem State.receive_opc (o : Byte) (p : List Byte) : (s.receive o p).opc = o := rfl
@[simp] theorem State.receive_hostIn (o : Byte) (p : List Byte) : (s.receive o p).hostIn = s.hostIn := rfl
@[simp] theorem State.receive_rspPending (o : Byte) (p : List Byte) : (s.receive o p).rspPending = s.rspPending := rfl
@[simp] theorem State.receive_rspSent (o : Byte) (p : List Byte) : (s.receive o p).rspSent = s.rspSent := rfl
@[simp] theorem State.receive_draws (o : Byte) (p : List Byte) : (s.receive o p).draws = s.draws := rfl

/-! ### `State.checking` -/

@[simp] theorem State.checking_keyValid (o : Byte) (p : List Byte) : (s.checking o p).keyValid = s.keyValid := rfl
@[simp] theorem State.checking_rk (o : Byte) (p : List Byte) : (s.checking o p).rk = s.rk := rfl
@[simp] theorem State.checking_sbox (o : Byte) (p : List Byte) : (s.checking o p).sbox = s.sbox := rfl
@[simp] theorem State.checking_invsbox (o : Byte) (p : List Byte) : (s.checking o p).invsbox = s.invsbox := rfl
@[simp] theorem State.checking_st (o : Byte) (p : List Byte) : (s.checking o p).st = s.st := rfl
@[simp] theorem State.checking_prng (o : Byte) (p : List Byte) : (s.checking o p).prng = s.prng := rfl
@[simp] theorem State.checking_phase (o : Byte) (p : List Byte) : (s.checking o p).phase = .check := rfl
@[simp] theorem State.checking_rnd (o : Byte) (p : List Byte) : (s.checking o p).rnd = s.rnd := rfl
@[simp] theorem State.checking_swapcnt (o : Byte) (p : List Byte) : (s.checking o p).swapcnt = s.swapcnt := rfl
@[simp] theorem State.checking_idx (o : Byte) (p : List Byte) : (s.checking o p).idx = s.idx := rfl
@[simp] theorem State.checking_inb (o : Byte) (p : List Byte) : (s.checking o p).inb = latchInb s.inb p := rfl
@[simp] theorem State.checking_len (o : Byte) (p : List Byte) : (s.checking o p).len = latchLen p := rfl
@[simp] theorem State.checking_opc (o : Byte) (p : List Byte) : (s.checking o p).opc = o := rfl
@[simp] theorem State.checking_hostIn (o : Byte) (p : List Byte) : (s.checking o p).hostIn = s.hostIn := rfl
@[simp] theorem State.checking_rspPending (o : Byte) (p : List Byte) :
    (s.checking o p).rspPending = s.rspPending := rfl
@[simp] theorem State.checking_rspSent (o : Byte) (p : List Byte) : (s.checking o p).rspSent = s.rspSent := rfl
@[simp] theorem State.checking_draws (o : Byte) (p : List Byte) : (s.checking o p).draws = s.draws := rfl

/-! ### `State.setKeyValid` -/

@[simp] theorem State.setKeyValid_keyValid : s.setKeyValid.keyValid = true := rfl
@[simp] theorem State.setKeyValid_rk : s.setKeyValid.rk = s.rk := rfl
@[simp] theorem State.setKeyValid_sbox : s.setKeyValid.sbox = s.sbox := rfl
@[simp] theorem State.setKeyValid_invsbox : s.setKeyValid.invsbox = s.invsbox := rfl
@[simp] theorem State.setKeyValid_st : s.setKeyValid.st = s.st := rfl
@[simp] theorem State.setKeyValid_prng : s.setKeyValid.prng = s.prng := rfl
@[simp] theorem State.setKeyValid_phase : s.setKeyValid.phase = s.phase := rfl
@[simp] theorem State.setKeyValid_rnd : s.setKeyValid.rnd = s.rnd := rfl
@[simp] theorem State.setKeyValid_swapcnt : s.setKeyValid.swapcnt = s.swapcnt := rfl
@[simp] theorem State.setKeyValid_idx : s.setKeyValid.idx = s.idx := rfl
@[simp] theorem State.setKeyValid_inb : s.setKeyValid.inb = s.inb := rfl
@[simp] theorem State.setKeyValid_len : s.setKeyValid.len = s.len := rfl
@[simp] theorem State.setKeyValid_opc : s.setKeyValid.opc = s.opc := rfl
@[simp] theorem State.setKeyValid_hostIn : s.setKeyValid.hostIn = s.hostIn := rfl
@[simp] theorem State.setKeyValid_rspPending : s.setKeyValid.rspPending = s.rspPending := rfl
@[simp] theorem State.setKeyValid_rspSent : s.setKeyValid.rspSent = s.rspSent := rfl
@[simp] theorem State.setKeyValid_draws : s.setKeyValid.draws = s.draws := rfl

/-! ### `State.freeScratch` -/

@[simp] theorem State.freeScratch_keyValid : s.freeScratch.keyValid = s.keyValid := rfl
@[simp] theorem State.freeScratch_rk : s.freeScratch.rk = s.rk := rfl
@[simp] theorem State.freeScratch_sbox : s.freeScratch.sbox = s.sbox := rfl
@[simp] theorem State.freeScratch_invsbox : s.freeScratch.invsbox = s.invsbox := rfl
@[simp] theorem State.freeScratch_st : s.freeScratch.st = Config.freeValue 128 s.draws := rfl
@[simp] theorem State.freeScratch_prng : s.freeScratch.prng = Config.freeValue 64 (s.draws + 1) := rfl
@[simp] theorem State.freeScratch_phase : s.freeScratch.phase = s.phase := rfl
@[simp] theorem State.freeScratch_rnd : s.freeScratch.rnd = Config.freeValue 2 (s.draws + 2) := rfl
@[simp] theorem State.freeScratch_swapcnt : s.freeScratch.swapcnt = Config.freeValue 16 (s.draws + 3) := rfl
@[simp] theorem State.freeScratch_idx : s.freeScratch.idx = Config.freeValue 9 (s.draws + 4) := rfl
@[simp] theorem State.freeScratch_inb : s.freeScratch.inb = Config.freeValue 128 (s.draws + 5) := rfl
@[simp] theorem State.freeScratch_len : s.freeScratch.len = Config.freeValue 5 (s.draws + 6) := rfl
@[simp] theorem State.freeScratch_opc : s.freeScratch.opc = Config.freeValue 8 (s.draws + 7) := rfl
@[simp] theorem State.freeScratch_hostIn : s.freeScratch.hostIn = s.hostIn := rfl
@[simp] theorem State.freeScratch_rspPending : s.freeScratch.rspPending = s.rspPending := rfl
@[simp] theorem State.freeScratch_rspSent : s.freeScratch.rspSent = s.rspSent := rfl
@[simp] theorem State.freeScratch_draws : s.freeScratch.draws = s.draws + 8 := rfl

/-! ### `State.respond` -/

@[simp] theorem State.respond_keyValid (d : Option Block) : (s.respond d).keyValid = s.keyValid := rfl
@[simp] theorem State.respond_rk (d : Option Block) : (s.respond d).rk = s.rk := rfl
@[simp] theorem State.respond_sbox (d : Option Block) : (s.respond d).sbox = s.sbox := rfl
@[simp] theorem State.respond_invsbox (d : Option Block) : (s.respond d).invsbox = s.invsbox := rfl
@[simp] theorem State.respond_st (d : Option Block) : (s.respond d).st = Config.freeValue 128 s.draws := rfl
@[simp] theorem State.respond_prng (d : Option Block) : (s.respond d).prng = Config.freeValue 64 (s.draws + 1) := rfl
@[simp] theorem State.respond_phase (d : Option Block) : (s.respond d).phase = .resp := rfl
@[simp] theorem State.respond_rnd (d : Option Block) : (s.respond d).rnd = Config.freeValue 2 (s.draws + 2) := rfl
@[simp] theorem State.respond_swapcnt (d : Option Block) :
    (s.respond d).swapcnt = Config.freeValue 16 (s.draws + 3) := rfl
@[simp] theorem State.respond_idx (d : Option Block) : (s.respond d).idx = Config.freeValue 9 (s.draws + 4) := rfl
@[simp] theorem State.respond_inb (d : Option Block) : (s.respond d).inb = Config.freeValue 128 (s.draws + 5) := rfl
@[simp] theorem State.respond_len (d : Option Block) : (s.respond d).len = Config.freeValue 5 (s.draws + 6) := rfl
@[simp] theorem State.respond_opc (d : Option Block) : (s.respond d).opc = Config.freeValue 8 (s.draws + 7) := rfl
@[simp] theorem State.respond_hostIn (d : Option Block) : (s.respond d).hostIn = s.hostIn := rfl
@[simp] theorem State.respond_rspPending (d : Option Block) : (s.respond d).rspPending = responseBeats .ok d := rfl
@[simp] theorem State.respond_rspSent (d : Option Block) : (s.respond d).rspSent = s.rspSent := rfl
@[simp] theorem State.respond_draws (d : Option Block) : (s.respond d).draws = s.draws + 8 := rfl

/-! ### `State.raise` -/

@[simp] theorem State.raise_keyValid (e : Status) : (s.raise e).keyValid = s.keyValid := rfl
@[simp] theorem State.raise_rk (e : Status) : (s.raise e).rk = s.rk := rfl
@[simp] theorem State.raise_sbox (e : Status) : (s.raise e).sbox = s.sbox := rfl
@[simp] theorem State.raise_invsbox (e : Status) : (s.raise e).invsbox = s.invsbox := rfl
@[simp] theorem State.raise_st (e : Status) : (s.raise e).st = Config.freeValue 128 s.draws := rfl
@[simp] theorem State.raise_prng (e : Status) : (s.raise e).prng = Config.freeValue 64 (s.draws + 1) := rfl
@[simp] theorem State.raise_phase (e : Status) : (s.raise e).phase = .err := rfl
@[simp] theorem State.raise_rnd (e : Status) : (s.raise e).rnd = Config.freeValue 2 (s.draws + 2) := rfl
@[simp] theorem State.raise_swapcnt (e : Status) : (s.raise e).swapcnt = Config.freeValue 16 (s.draws + 3) := rfl
@[simp] theorem State.raise_idx (e : Status) : (s.raise e).idx = Config.freeValue 9 (s.draws + 4) := rfl
@[simp] theorem State.raise_inb (e : Status) : (s.raise e).inb = Config.freeValue 128 (s.draws + 5) := rfl
@[simp] theorem State.raise_len (e : Status) : (s.raise e).len = Config.freeValue 5 (s.draws + 6) := rfl
@[simp] theorem State.raise_opc (e : Status) : (s.raise e).opc = Config.freeValue 8 (s.draws + 7) := rfl
@[simp] theorem State.raise_hostIn (e : Status) : (s.raise e).hostIn = s.hostIn := rfl
@[simp] theorem State.raise_rspPending (e : Status) : (s.raise e).rspPending = responseBeats e none := rfl
@[simp] theorem State.raise_rspSent (e : Status) : (s.raise e).rspSent = s.rspSent := rfl
@[simp] theorem State.raise_draws (e : Status) : (s.raise e).draws = s.draws + 8 := rfl

/-! ### `State.drain` -/

@[simp] theorem State.drain_keyValid : s.drain.keyValid = s.keyValid := rfl
@[simp] theorem State.drain_rk : s.drain.rk = s.rk := rfl
@[simp] theorem State.drain_sbox : s.drain.sbox = s.sbox := rfl
@[simp] theorem State.drain_invsbox : s.drain.invsbox = s.invsbox := rfl
@[simp] theorem State.drain_st : s.drain.st = s.st := rfl
@[simp] theorem State.drain_prng : s.drain.prng = s.prng := rfl
@[simp] theorem State.drain_phase : s.drain.phase = if s.rspPending = [] then s.phase else .idle := rfl
@[simp] theorem State.drain_rnd : s.drain.rnd = s.rnd := rfl
@[simp] theorem State.drain_swapcnt : s.drain.swapcnt = s.swapcnt := rfl
@[simp] theorem State.drain_idx : s.drain.idx = s.idx := rfl
@[simp] theorem State.drain_inb : s.drain.inb = s.inb := rfl
@[simp] theorem State.drain_len : s.drain.len = s.len := rfl
@[simp] theorem State.drain_opc : s.drain.opc = s.opc := rfl
@[simp] theorem State.drain_hostIn : s.drain.hostIn = s.hostIn := rfl
@[simp] theorem State.drain_rspPending : s.drain.rspPending = [] := rfl
@[simp] theorem State.drain_rspSent : s.drain.rspSent = s.rspSent ++ s.rspPending := rfl
@[simp] theorem State.drain_draws : s.drain.draws = s.draws := rfl

/-! ### `State.accept` -/

@[simp] theorem State.accept_keyValid (r : List HostEvent) : (s.accept r).keyValid = s.keyValid := rfl
@[simp] theorem State.accept_rk (r : List HostEvent) : (s.accept r).rk = s.rk := rfl
@[simp] theorem State.accept_sbox (r : List HostEvent) : (s.accept r).sbox = s.sbox := rfl
@[simp] theorem State.accept_invsbox (r : List HostEvent) : (s.accept r).invsbox = s.invsbox := rfl
@[simp] theorem State.accept_st (r : List HostEvent) : (s.accept r).st = s.st := rfl
@[simp] theorem State.accept_prng (r : List HostEvent) : (s.accept r).prng = s.prng := rfl
@[simp] theorem State.accept_phase (r : List HostEvent) :
    (s.accept r).phase = if s.rspPending = [] then s.phase else .idle := rfl
@[simp] theorem State.accept_rnd (r : List HostEvent) : (s.accept r).rnd = s.rnd := rfl
@[simp] theorem State.accept_swapcnt (r : List HostEvent) : (s.accept r).swapcnt = s.swapcnt := rfl
@[simp] theorem State.accept_idx (r : List HostEvent) : (s.accept r).idx = s.idx := rfl
@[simp] theorem State.accept_inb (r : List HostEvent) : (s.accept r).inb = s.inb := rfl
@[simp] theorem State.accept_len (r : List HostEvent) : (s.accept r).len = s.len := rfl
@[simp] theorem State.accept_opc (r : List HostEvent) : (s.accept r).opc = s.opc := rfl
@[simp] theorem State.accept_hostIn (r : List HostEvent) : (s.accept r).hostIn = r := rfl
@[simp] theorem State.accept_rspPending (r : List HostEvent) : (s.accept r).rspPending = [] := rfl
@[simp] theorem State.accept_rspSent (r : List HostEvent) : (s.accept r).rspSent = s.rspSent ++ s.rspPending := rfl
@[simp] theorem State.accept_draws (r : List HostEvent) : (s.accept r).draws = s.draws := rfl

/-! ### `State.resetEvent` -/

@[simp] theorem State.resetEvent_keyValid (r : List HostEvent) : (s.resetEvent r).keyValid = false := rfl
@[simp] theorem State.resetEvent_rk (r : List HostEvent) : (s.resetEvent r).rk = freeRk (s.draws + 8) := rfl
@[simp] theorem State.resetEvent_sbox (r : List HostEvent) : (s.resetEvent r).sbox = [] := rfl
@[simp] theorem State.resetEvent_invsbox (r : List HostEvent) : (s.resetEvent r).invsbox = [] := rfl
@[simp] theorem State.resetEvent_st (r : List HostEvent) : (s.resetEvent r).st = Config.freeValue 128 s.draws := rfl
@[simp] theorem State.resetEvent_prng (r : List HostEvent) :
    (s.resetEvent r).prng = Config.freeValue 64 (s.draws + 1) := rfl
@[simp] theorem State.resetEvent_phase (r : List HostEvent) : (s.resetEvent r).phase = .idle := rfl
@[simp] theorem State.resetEvent_rnd (r : List HostEvent) :
    (s.resetEvent r).rnd = Config.freeValue 2 (s.draws + 2) := rfl
@[simp] theorem State.resetEvent_swapcnt (r : List HostEvent) :
    (s.resetEvent r).swapcnt = Config.freeValue 16 (s.draws + 3) := rfl
@[simp] theorem State.resetEvent_idx (r : List HostEvent) :
    (s.resetEvent r).idx = Config.freeValue 9 (s.draws + 4) := rfl
@[simp] theorem State.resetEvent_inb (r : List HostEvent) :
    (s.resetEvent r).inb = Config.freeValue 128 (s.draws + 5) := rfl
@[simp] theorem State.resetEvent_len (r : List HostEvent) :
    (s.resetEvent r).len = Config.freeValue 5 (s.draws + 6) := rfl
@[simp] theorem State.resetEvent_opc (r : List HostEvent) :
    (s.resetEvent r).opc = Config.freeValue 8 (s.draws + 7) := rfl
@[simp] theorem State.resetEvent_hostIn (r : List HostEvent) : (s.resetEvent r).hostIn = r := rfl
@[simp] theorem State.resetEvent_rspPending (r : List HostEvent) : (s.resetEvent r).rspPending = [] := rfl
@[simp] theorem State.resetEvent_rspSent (r : List HostEvent) : (s.resetEvent r).rspSent = s.rspSent := rfl
@[simp] theorem State.resetEvent_draws (r : List HostEvent) : (s.resetEvent r).draws = s.draws + 8 + Config.nrk := rfl

/-! ### `State.await` -/

@[simp] theorem State.await_keyValid (o : Byte) (p : List Byte) : (s.await o p).keyValid = s.keyValid := rfl
@[simp] theorem State.await_rk (o : Byte) (p : List Byte) : (s.await o p).rk = s.rk := rfl
@[simp] theorem State.await_sbox (o : Byte) (p : List Byte) : (s.await o p).sbox = s.sbox := rfl
@[simp] theorem State.await_invsbox (o : Byte) (p : List Byte) : (s.await o p).invsbox = s.invsbox := rfl
@[simp] theorem State.await_st (o : Byte) (p : List Byte) : (s.await o p).st = s.st := rfl
@[simp] theorem State.await_prng (o : Byte) (p : List Byte) : (s.await o p).prng = s.prng := rfl
@[simp] theorem State.await_phase (o : Byte) (p : List Byte) : (s.await o p).phase = .recv := rfl
@[simp] theorem State.await_rnd (o : Byte) (p : List Byte) : (s.await o p).rnd = s.rnd := rfl
@[simp] theorem State.await_swapcnt (o : Byte) (p : List Byte) : (s.await o p).swapcnt = s.swapcnt := rfl
@[simp] theorem State.await_idx (o : Byte) (p : List Byte) : (s.await o p).idx = s.idx := rfl
@[simp] theorem State.await_inb (o : Byte) (p : List Byte) : (s.await o p).inb = latchInb s.inb p := rfl
@[simp] theorem State.await_len (o : Byte) (p : List Byte) : (s.await o p).len = latchLen p := rfl
@[simp] theorem State.await_opc (o : Byte) (p : List Byte) : (s.await o p).opc = o := rfl
@[simp] theorem State.await_hostIn (o : Byte) (p : List Byte) : (s.await o p).hostIn = s.hostIn := rfl
@[simp] theorem State.await_rspPending (o : Byte) (p : List Byte) : (s.await o p).rspPending = [] := rfl
@[simp] theorem State.await_rspSent (o : Byte) (p : List Byte) :
    (s.await o p).rspSent = s.rspSent ++ s.rspPending := rfl
@[simp] theorem State.await_draws (o : Byte) (p : List Byte) : (s.await o p).draws = s.draws := rfl

/-! ### `State.offerWord` -/

@[simp] theorem State.offerWord_keyValid (n w : Nat) : (s.offerWord n w).keyValid = s.keyValid := rfl
@[simp] theorem State.offerWord_rk (n w : Nat) : (s.offerWord n w).rk = s.rk := rfl
@[simp] theorem State.offerWord_sbox (n w : Nat) : (s.offerWord n w).sbox = s.sbox := rfl
@[simp] theorem State.offerWord_invsbox (n w : Nat) : (s.offerWord n w).invsbox = s.invsbox := rfl
@[simp] theorem State.offerWord_st (n w : Nat) : (s.offerWord n w).st = s.st := rfl
@[simp] theorem State.offerWord_prng (n w : Nat) : (s.offerWord n w).prng = s.prng := rfl
@[simp] theorem State.offerWord_phase (n w : Nat) : (s.offerWord n w).phase = s.phase := rfl
@[simp] theorem State.offerWord_rnd (n w : Nat) : (s.offerWord n w).rnd = s.rnd := rfl
@[simp] theorem State.offerWord_swapcnt (n w : Nat) : (s.offerWord n w).swapcnt = s.swapcnt := rfl
@[simp] theorem State.offerWord_idx (n w : Nat) : (s.offerWord n w).idx = s.idx := rfl
@[simp] theorem State.offerWord_inb (n w : Nat) : (s.offerWord n w).inb = s.inb := rfl
@[simp] theorem State.offerWord_len (n w : Nat) : (s.offerWord n w).len = s.len := rfl
@[simp] theorem State.offerWord_opc (n w : Nat) : (s.offerWord n w).opc = s.opc := rfl
@[simp] theorem State.offerWord_hostIn (n w : Nat) :
    (s.offerWord n w).hostIn = packetEvents (tablePacket n w) ++ s.hostIn := rfl
@[simp] theorem State.offerWord_rspPending (n w : Nat) : (s.offerWord n w).rspPending = s.rspPending := rfl
@[simp] theorem State.offerWord_rspSent (n w : Nat) : (s.offerWord n w).rspSent = s.rspSent := rfl
@[simp] theorem State.offerWord_draws (n w : Nat) : (s.offerWord n w).draws = s.draws := rfl

/-! ### `State.withFetchWord` -/

@[simp] theorem State.withFetchWord_keyValid (n w : Nat) : (s.withFetchWord n w).keyValid = s.keyValid := rfl
@[simp] theorem State.withFetchWord_rk (n w : Nat) : (s.withFetchWord n w).rk = s.rk := rfl
@[simp] theorem State.withFetchWord_sbox (n w : Nat) : (s.withFetchWord n w).sbox = s.sbox := rfl
@[simp] theorem State.withFetchWord_invsbox (n w : Nat) : (s.withFetchWord n w).invsbox = s.invsbox := rfl
@[simp] theorem State.withFetchWord_st (n w : Nat) : (s.withFetchWord n w).st = s.st := rfl
@[simp] theorem State.withFetchWord_prng (n w : Nat) : (s.withFetchWord n w).prng = s.prng := rfl
@[simp] theorem State.withFetchWord_phase (n w : Nat) : (s.withFetchWord n w).phase = s.phase := rfl
@[simp] theorem State.withFetchWord_rnd (n w : Nat) : (s.withFetchWord n w).rnd = s.rnd := rfl
@[simp] theorem State.withFetchWord_swapcnt (n w : Nat) : (s.withFetchWord n w).swapcnt = s.swapcnt := rfl
@[simp] theorem State.withFetchWord_idx (n w : Nat) : (s.withFetchWord n w).idx = s.idx := rfl
@[simp] theorem State.withFetchWord_inb (n w : Nat) : (s.withFetchWord n w).inb = s.inb := rfl
@[simp] theorem State.withFetchWord_len (n w : Nat) : (s.withFetchWord n w).len = s.len := rfl
@[simp] theorem State.withFetchWord_opc (n w : Nat) : (s.withFetchWord n w).opc = s.opc := rfl
@[simp] theorem State.withFetchWord_hostIn (n w : Nat) :
    (s.withFetchWord n w).hostIn = packetEvents (tablePacket n w) ++ s.hostIn := rfl
@[simp] theorem State.withFetchWord_rspPending (n w : Nat) : (s.withFetchWord n w).rspPending = s.rspPending := rfl
@[simp] theorem State.withFetchWord_rspSent (n w : Nat) : (s.withFetchWord n w).rspSent = s.rspSent := rfl
@[simp] theorem State.withFetchWord_draws (n w : Nat) : (s.withFetchWord n w).draws = s.draws := rfl

/-! ### The operations of the controller

`SBSWAP` and `SBINIT` keep their tables folded: a later proof cites what they say of the cells. -/

@[simp] theorem opKs_keyValid : (opKs s).keyValid = s.keyValid := rfl
@[simp] theorem opKs_rk : (opKs s).rk = roundKeys s.inb := rfl
@[simp] theorem opKs_sbox : (opKs s).sbox = s.sbox := rfl
@[simp] theorem opKs_invsbox : (opKs s).invsbox = s.invsbox := rfl
@[simp] theorem opKs_st : (opKs s).st = s.st := rfl
@[simp] theorem opKs_prng : (opKs s).prng = s.prng := rfl
@[simp] theorem opKs_phase : (opKs s).phase = .ks := rfl
@[simp] theorem opKs_rnd : (opKs s).rnd = s.rnd := rfl
@[simp] theorem opKs_swapcnt : (opKs s).swapcnt = s.swapcnt := rfl
@[simp] theorem opKs_idx : (opKs s).idx = s.idx := rfl
@[simp] theorem opKs_inb : (opKs s).inb = s.inb := rfl
@[simp] theorem opKs_len : (opKs s).len = s.len := rfl
@[simp] theorem opKs_opc : (opKs s).opc = s.opc := rfl
@[simp] theorem opKs_hostIn : (opKs s).hostIn = s.hostIn := rfl
@[simp] theorem opKs_rspPending : (opKs s).rspPending = s.rspPending := rfl
@[simp] theorem opKs_rspSent : (opKs s).rspSent = s.rspSent := rfl
@[simp] theorem opKs_draws : (opKs s).draws = s.draws := rfl

@[simp] theorem opSeed_keyValid : (opSeed s).keyValid = s.keyValid := rfl
@[simp] theorem opSeed_rk : (opSeed s).rk = s.rk := rfl
@[simp] theorem opSeed_sbox : (opSeed s).sbox = s.sbox := rfl
@[simp] theorem opSeed_invsbox : (opSeed s).invsbox = s.invsbox := rfl
@[simp] theorem opSeed_st : (opSeed s).st = s.st := rfl
@[simp] theorem opSeed_prng : (opSeed s).prng = xs64.seed s.inb := rfl
@[simp] theorem opSeed_phase : (opSeed s).phase = .seed := rfl
@[simp] theorem opSeed_rnd : (opSeed s).rnd = s.rnd := rfl
@[simp] theorem opSeed_swapcnt : (opSeed s).swapcnt = s.swapcnt := rfl
@[simp] theorem opSeed_idx : (opSeed s).idx = s.idx := rfl
@[simp] theorem opSeed_inb : (opSeed s).inb = s.inb := rfl
@[simp] theorem opSeed_len : (opSeed s).len = s.len := rfl
@[simp] theorem opSeed_opc : (opSeed s).opc = s.opc := rfl
@[simp] theorem opSeed_hostIn : (opSeed s).hostIn = s.hostIn := rfl
@[simp] theorem opSeed_rspPending : (opSeed s).rspPending = s.rspPending := rfl
@[simp] theorem opSeed_rspSent : (opSeed s).rspSent = s.rspSent := rfl
@[simp] theorem opSeed_draws : (opSeed s).draws = s.draws := rfl

@[simp] theorem opSbinit_keyValid : (opSbinit s).keyValid = s.keyValid := rfl
@[simp] theorem opSbinit_rk : (opSbinit s).rk = s.rk := rfl
@[simp] theorem opSbinit_sbox : (opSbinit s).sbox = sbInit s.sbox := by simp only [opSbinit]
@[simp] theorem opSbinit_invsbox : (opSbinit s).invsbox = s.invsbox := rfl
@[simp] theorem opSbinit_st : (opSbinit s).st = s.st := rfl
@[simp] theorem opSbinit_prng : (opSbinit s).prng = s.prng := rfl
@[simp] theorem opSbinit_phase : (opSbinit s).phase = .sbinit := rfl
@[simp] theorem opSbinit_rnd : (opSbinit s).rnd = s.rnd := rfl
@[simp] theorem opSbinit_swapcnt : (opSbinit s).swapcnt = s.swapcnt := rfl
@[simp] theorem opSbinit_idx : (opSbinit s).idx = BitVec.ofNat 9 Config.sboxSize := rfl
@[simp] theorem opSbinit_inb : (opSbinit s).inb = s.inb := rfl
@[simp] theorem opSbinit_len : (opSbinit s).len = s.len := rfl
@[simp] theorem opSbinit_opc : (opSbinit s).opc = s.opc := rfl
@[simp] theorem opSbinit_hostIn : (opSbinit s).hostIn = s.hostIn := rfl
@[simp] theorem opSbinit_rspPending : (opSbinit s).rspPending = s.rspPending := rfl
@[simp] theorem opSbinit_rspSent : (opSbinit s).rspSent = s.rspSent := rfl
@[simp] theorem opSbinit_draws : (opSbinit s).draws = s.draws := rfl

@[simp] theorem opSbswap_keyValid : (opSbswap s).keyValid = s.keyValid := rfl
@[simp] theorem opSbswap_rk : (opSbswap s).rk = s.rk := rfl
@[simp] theorem opSbswap_sbox : (opSbswap s).sbox = (swapLoop xs64 Config.nswaps s.prng s.sbox).2 := rfl
@[simp] theorem opSbswap_invsbox : (opSbswap s).invsbox = s.invsbox := rfl
@[simp] theorem opSbswap_st : (opSbswap s).st = s.st := rfl
@[simp] theorem opSbswap_prng : (opSbswap s).prng = (swapLoop xs64 Config.nswaps s.prng s.sbox).1 := rfl
@[simp] theorem opSbswap_phase : (opSbswap s).phase = .sbswap := rfl
@[simp] theorem opSbswap_rnd : (opSbswap s).rnd = s.rnd := rfl
@[simp] theorem opSbswap_swapcnt : (opSbswap s).swapcnt = BitVec.ofNat 16 Config.nswaps := rfl
@[simp] theorem opSbswap_idx : (opSbswap s).idx = s.idx := rfl
@[simp] theorem opSbswap_inb : (opSbswap s).inb = s.inb := rfl
@[simp] theorem opSbswap_len : (opSbswap s).len = s.len := rfl
@[simp] theorem opSbswap_opc : (opSbswap s).opc = s.opc := rfl
@[simp] theorem opSbswap_hostIn : (opSbswap s).hostIn = s.hostIn := rfl
@[simp] theorem opSbswap_rspPending : (opSbswap s).rspPending = s.rspPending := rfl
@[simp] theorem opSbswap_rspSent : (opSbswap s).rspSent = s.rspSent := rfl
@[simp] theorem opSbswap_draws : (opSbswap s).draws = s.draws := rfl

@[simp] theorem opSbinv_keyValid : (opSbinv s).keyValid = s.keyValid := rfl
@[simp] theorem opSbinv_rk : (opSbinv s).rk = s.rk := rfl
@[simp] theorem opSbinv_sbox : (opSbinv s).sbox = s.sbox := rfl
@[simp] theorem opSbinv_invsbox : (opSbinv s).invsbox = sbInv s.sbox s.invsbox := by simp only [opSbinv]
@[simp] theorem opSbinv_st : (opSbinv s).st = s.st := rfl
@[simp] theorem opSbinv_prng : (opSbinv s).prng = s.prng := rfl
@[simp] theorem opSbinv_phase : (opSbinv s).phase = .sbinv := rfl
@[simp] theorem opSbinv_rnd : (opSbinv s).rnd = s.rnd := rfl
@[simp] theorem opSbinv_swapcnt : (opSbinv s).swapcnt = s.swapcnt := rfl
@[simp] theorem opSbinv_idx : (opSbinv s).idx = BitVec.ofNat 9 Config.sboxSize := rfl
@[simp] theorem opSbinv_inb : (opSbinv s).inb = s.inb := rfl
@[simp] theorem opSbinv_len : (opSbinv s).len = s.len := rfl
@[simp] theorem opSbinv_opc : (opSbinv s).opc = s.opc := rfl
@[simp] theorem opSbinv_hostIn : (opSbinv s).hostIn = s.hostIn := rfl
@[simp] theorem opSbinv_rspPending : (opSbinv s).rspPending = s.rspPending := rfl
@[simp] theorem opSbinv_rspSent : (opSbinv s).rspSent = s.rspSent := rfl
@[simp] theorem opSbinv_draws : (opSbinv s).draws = s.draws := rfl

@[simp] theorem opLdst_keyValid : (opLdst s).keyValid = s.keyValid := rfl
@[simp] theorem opLdst_rk : (opLdst s).rk = s.rk := rfl
@[simp] theorem opLdst_sbox : (opLdst s).sbox = s.sbox := rfl
@[simp] theorem opLdst_invsbox : (opLdst s).invsbox = s.invsbox := rfl
@[simp] theorem opLdst_st : (opLdst s).st = s.inb := rfl
@[simp] theorem opLdst_prng : (opLdst s).prng = s.prng := rfl
@[simp] theorem opLdst_phase : (opLdst s).phase = .ldst := rfl
@[simp] theorem opLdst_rnd : (opLdst s).rnd = s.rnd := rfl
@[simp] theorem opLdst_swapcnt : (opLdst s).swapcnt = s.swapcnt := rfl
@[simp] theorem opLdst_idx : (opLdst s).idx = s.idx := rfl
@[simp] theorem opLdst_inb : (opLdst s).inb = s.inb := rfl
@[simp] theorem opLdst_len : (opLdst s).len = s.len := rfl
@[simp] theorem opLdst_opc : (opLdst s).opc = s.opc := rfl
@[simp] theorem opLdst_hostIn : (opLdst s).hostIn = s.hostIn := rfl
@[simp] theorem opLdst_rspPending : (opLdst s).rspPending = s.rspPending := rfl
@[simp] theorem opLdst_rspSent : (opLdst s).rspSent = s.rspSent := rfl
@[simp] theorem opLdst_draws : (opLdst s).draws = s.draws := rfl

@[simp] theorem opArk_keyValid (r : BitVec 2) : (opArk r s).keyValid = s.keyValid := rfl
@[simp] theorem opArk_rk (r : BitVec 2) : (opArk r s).rk = s.rk := rfl
@[simp] theorem opArk_sbox (r : BitVec 2) : (opArk r s).sbox = s.sbox := rfl
@[simp] theorem opArk_invsbox (r : BitVec 2) : (opArk r s).invsbox = s.invsbox := rfl
@[simp] theorem opArk_st (r : BitVec 2) : (opArk r s).st = s.st ^^^ s.readRk r := rfl
@[simp] theorem opArk_prng (r : BitVec 2) : (opArk r s).prng = s.prng := rfl
@[simp] theorem opArk_phase (r : BitVec 2) : (opArk r s).phase = .ark := rfl
@[simp] theorem opArk_rnd (r : BitVec 2) : (opArk r s).rnd = r := rfl
@[simp] theorem opArk_swapcnt (r : BitVec 2) : (opArk r s).swapcnt = s.swapcnt := rfl
@[simp] theorem opArk_idx (r : BitVec 2) : (opArk r s).idx = s.idx := rfl
@[simp] theorem opArk_inb (r : BitVec 2) : (opArk r s).inb = s.inb := rfl
@[simp] theorem opArk_len (r : BitVec 2) : (opArk r s).len = s.len := rfl
@[simp] theorem opArk_opc (r : BitVec 2) : (opArk r s).opc = s.opc := rfl
@[simp] theorem opArk_hostIn (r : BitVec 2) : (opArk r s).hostIn = s.hostIn := rfl
@[simp] theorem opArk_rspPending (r : BitVec 2) : (opArk r s).rspPending = s.rspPending := rfl
@[simp] theorem opArk_rspSent (r : BitVec 2) : (opArk r s).rspSent = s.rspSent := rfl
@[simp] theorem opArk_draws (r : BitVec 2) : (opArk r s).draws = s.draws := rfl

@[simp] theorem opDiffop_keyValid : (opDiffop s).keyValid = s.keyValid := rfl
@[simp] theorem opDiffop_rk : (opDiffop s).rk = s.rk := rfl
@[simp] theorem opDiffop_sbox : (opDiffop s).sbox = s.sbox := rfl
@[simp] theorem opDiffop_invsbox : (opDiffop s).invsbox = s.invsbox := rfl
@[simp] theorem opDiffop_st : (opDiffop s).st = diff s.st := rfl
@[simp] theorem opDiffop_prng : (opDiffop s).prng = s.prng := rfl
@[simp] theorem opDiffop_phase : (opDiffop s).phase = .diffop := rfl
@[simp] theorem opDiffop_rnd : (opDiffop s).rnd = s.rnd := rfl
@[simp] theorem opDiffop_swapcnt : (opDiffop s).swapcnt = s.swapcnt := rfl
@[simp] theorem opDiffop_idx : (opDiffop s).idx = s.idx := rfl
@[simp] theorem opDiffop_inb : (opDiffop s).inb = s.inb := rfl
@[simp] theorem opDiffop_len : (opDiffop s).len = s.len := rfl
@[simp] theorem opDiffop_opc : (opDiffop s).opc = s.opc := rfl
@[simp] theorem opDiffop_hostIn : (opDiffop s).hostIn = s.hostIn := rfl
@[simp] theorem opDiffop_rspPending : (opDiffop s).rspPending = s.rspPending := rfl
@[simp] theorem opDiffop_rspSent : (opDiffop s).rspSent = s.rspSent := rfl
@[simp] theorem opDiffop_draws : (opDiffop s).draws = s.draws := rfl

end Sys2Proof.Machine
end

