-- ==== Sys2Proof/Laws/Block.lean ====
section
/-! SUPPORT. Blocks and their bytes: a block is its sixteen bytes, packing and unpacking are inverse, and what the
port's registers hold after a packet (spec/00_scope.md R6, spec/30_encoding.md R48, R51). -/

namespace Sys2Proof.Machine

theorem mem_lanes (i : Lane) : i ∈ lanes := by revert i; decide

@[simp] theorem lanes_length : lanes.length = 16 := rfl

theorem lanes_getElem (j : Nat) (h : j < lanes.length) : lanes[j] = ⟨j, by simpa using h⟩ := by
  have : ∀ j : Fin 16, lanes[j.val]'(by simp [j.isLt]) = j := by decide
  exact this ⟨j, by simpa using h⟩

theorem byteOf_getLsbD (x : Block) (i : Lane) (q : Nat) :
    (byteOf x i).getLsbD q = (decide (q < 8) && x.getLsbD (8 * i.val + q)) := by
  simp [byteOf, BitVec.getLsbD_extractLsb']

/-- Two blocks with the same 128 bits are equal. -/
theorem block_eq_of_bits {x y : Block} (h : ∀ p < 128, x.getLsbD p = y.getLsbD p) : x = y :=
  BitVec.eq_of_getLsbD_eq h

/-- Two blocks with the same sixteen bytes are equal. -/
theorem block_ext {x y : Block} (h : ∀ i, byteOf x i = byteOf y i) : x = y := by
  apply block_eq_of_bits
  intro p hp
  have hb := congrArg (fun b : Byte => b.getLsbD (p % 8)) (h ⟨p / 8, by omega⟩)
  have h8 : p % 8 < 8 := Nat.mod_lt _ (by decide)
  simp only [byteOf_getLsbD, h8, decide_true, Bool.true_and, Nat.div_add_mod] at hb
  exact hb

theorem byteOf_setByte (x : Block) (i j : Lane) (b : Byte) :
    byteOf (setByte x i b) j = if j = i then b else byteOf x j := by
  apply BitVec.eq_of_getLsbD_eq
  intro q hq
  have hj := j.isLt
  have hff : ∀ n, (0xff#128).getLsbD n = decide (n < 8) := by
    intro n
    by_cases hn : n < 128
    · have : ∀ n : Fin 128, (0xff#128).getLsbD n.val = decide (n.val < 8) := by decide
      exact this ⟨n, hn⟩
    · simp [BitVec.getLsbD_of_ge _ _ (Nat.le_of_not_lt hn)]; omega
  rw [byteOf_getLsbD]
  simp only [setByte, BitVec.getLsbD_or, BitVec.getLsbD_and, BitVec.getLsbD_not, BitVec.getLsbD_shiftLeft,
    BitVec.getLsbD_setWidth, hff]
  by_cases hji : j = i
  · subst hji
    simp [hq, show 8 * j.val + q < 128 by omega, show ¬ 8 * j.val + q < 8 * j.val by omega,
      show 8 * j.val + q - 8 * j.val = q by omega, show q < 128 by omega]
  · have hne : j.val ≠ i.val := fun e => hji (Fin.ext e)
    simp only [hji, if_false, byteOf_getLsbD, hq, decide_true, Bool.true_and]
    by_cases hlt : 8 * j.val + q < 8 * i.val
    · simp [hlt, show 8 * j.val + q < 128 by omega]
    · have : ¬ 8 * j.val + q - 8 * i.val < 8 := by omega
      have hb : b.getLsbD (8 * j.val + q - 8 * i.val) = false := BitVec.getLsbD_of_ge _ _ (by omega)
      simp [hlt, this, hb, show 8 * j.val + q < 128 by omega]

theorem pack_getLsbD (bs : List Byte) (p : Nat) (hp : p < 128) :
    (pack bs).getLsbD p = (bs.getD (p / 8) 0#8).getLsbD (p % 8) := by
  induction bs generalizing p with
  | nil => simp [pack]
  | cons b bs ih =>
    simp only [pack, BitVec.getLsbD_or, BitVec.getLsbD_shiftLeft, BitVec.getLsbD_setWidth, hp, decide_true,
      Bool.true_and]
    by_cases h8 : p < 8
    · simp [h8, Nat.div_eq_of_lt h8, Nat.mod_eq_of_lt h8]
    · have h1 : p / 8 = (p - 8) / 8 + 1 := by omega
      have h2 : p % 8 = (p - 8) % 8 := by omega
      rw [ih (p - 8) (by omega), h1, h2, BitVec.getLsbD_of_ge b p (by omega)]
      simp [h8]

/-- `byte(pack(b), i)` is the i-th byte (0 past the end). -/
theorem byteOf_pack (bs : List Byte) (i : Lane) : byteOf (pack bs) i = bs.getD i.val 0#8 := by
  apply BitVec.eq_of_getLsbD_eq
  intro q hq
  have := i.isLt
  rw [byteOf_getLsbD, pack_getLsbD _ _ (by omega), show (8 * i.val + q) / 8 = i.val by omega,
    show (8 * i.val + q) % 8 = q by omega]
  simp [hq]

@[simp] theorem unpack_length (x : Block) : (unpack x).length = 16 := rfl

theorem unpack_getElem (x : Block) (j : Nat) (h : j < (unpack x).length) :
    (unpack x)[j] = byteOf x ⟨j, by simpa using h⟩ := by
  simp [unpack, lanes_getElem]

@[simp] theorem pack_unpack (x : Block) : pack (unpack x) = x :=
  block_ext fun i => by
    have h : i.val < (unpack x).length := by rw [unpack_length]; exact i.isLt
    rw [byteOf_pack, List.getD_eq_getElem _ _ h, unpack_getElem]

theorem unpack_pack {bs : List Byte} (h : bs.length = 16) : unpack (pack bs) = bs := by
  apply List.ext_getElem (by simp [h])
  intro j h1 h2
  rw [unpack_getElem, byteOf_pack, List.getD_eq_getElem _ _ (by simpa using h2)]

/-- What lane `i` of `INB` holds: the payload byte that has come for it, or what it held before. -/
theorem byteOf_latchInb (old : Block) (p : List Byte) (i : Lane) :
    byteOf (latchInb old p) i = p.getD i.val (byteOf old i) := by
  rw [latchInb, byteOf_pack, List.getD_eq_getElem _ _ (by simp [i.isLt])]
  simp [lanes_getElem]

/-- A whole operand leaves nothing of the old `INB`: `INB = pack(payload)`. -/
theorem latchInb_eq_pack {old : Block} {p : List Byte} (h : p.length = 16) : latchInb old p = pack p :=
  block_ext fun i => by
    rw [byteOf_latchInb, byteOf_pack, List.getD_eq_getElem _ _ (by omega), List.getD_eq_getElem _ _ (by omega)]

theorem latchLen_toNat (p : List Byte) : (latchLen p).toNat = min p.length 17 := by
  simp only [latchLen, BitVec.toNat_ofNat]
  omega

end Sys2Proof.Machine
end

