-- ==== Sys2Proof/Laws/Memory.lean ====
section
/-! SUPPORT. The laws of table memory: read after write, and the canonical form. -/

namespace Sys2Proof.Machine

theorem Memory.read_write_same (m : Memory) (a : Nat) (v : Byte) : (m.write a v).read a = some v := by
  induction m with
  | nil => simp [Memory.write, Memory.read]
  | cons c m ih =>
    obtain ⟨k, w⟩ := c
    simp only [Memory.write]
    split
    · simp [Memory.read]
    · split
      · simp [Memory.read]
      · next h => simp [Memory.read, Ne.symm h, ih]

theorem Memory.read_write_other (m : Memory) {a b : Nat} (v : Byte) (h : a ≠ b) :
    (m.write a v).read b = m.read b := by
  induction m with
  | nil => simp [Memory.write, Memory.read, h]
  | cons c m ih =>
    obtain ⟨k, w⟩ := c
    simp only [Memory.write]
    split
    · simp [Memory.read, h]
    · split
      · next e => subst e; simp [Memory.read, h]
      · simp [Memory.read, ih]

theorem Memory.sortedFrom_write {m : Memory} {lo a : Nat} {v : Byte} (hm : m.sortedFrom lo = true) (hlo : lo ≤ a)
    (ha : a < 256) : (m.write a v).sortedFrom lo = true := by
  induction m generalizing lo with
  | nil => simp [Memory.write, Memory.sortedFrom, hlo, ha]
  | cons c m ih =>
    obtain ⟨k, w⟩ := c
    simp only [Memory.sortedFrom, Bool.and_eq_true, decide_eq_true_eq] at hm
    obtain ⟨⟨h1, h2⟩, h3⟩ := hm
    simp only [Memory.write]
    split
    · simp [Memory.sortedFrom, hlo, ha, h2, h3]; omega
    · split
      · next e => subst e; simp [Memory.sortedFrom, hlo, ha, h3]
      · simp [Memory.sortedFrom, h1, h2, ih h3 (by omega : k + 1 ≤ a)]

/-- A write inside the space keeps the canonical form. -/
theorem Memory.wf_write {m : Memory} {a : Nat} {v : Byte} (hm : m.wf = true) (ha : a < 256) :
    (m.write a v).wf = true :=
  Memory.sortedFrom_write hm (Nat.zero_le a) ha

theorem Memory.read_below {m : Memory} {lo a : Nat} (hm : m.sortedFrom lo = true) (h : a < lo) : m.read a = none := by
  induction m generalizing lo with
  | nil => rfl
  | cons c m ih =>
    obtain ⟨k, w⟩ := c
    simp only [Memory.sortedFrom, Bool.and_eq_true, decide_eq_true_eq] at hm
    obtain ⟨⟨h1, -⟩, h3⟩ := hm
    simp [Memory.read, show k ≠ a by omega, ih h3 (by omega)]

theorem Memory.sortedFrom_ext {m n : Memory} {lo : Nat} (hm : m.sortedFrom lo = true) (hn : n.sortedFrom lo = true)
    (h : ∀ a < 256, m.read a = n.read a) : m = n := by
  induction m generalizing n lo with
  | nil =>
    cases n with
    | nil => rfl
    | cons c n =>
      obtain ⟨k, w⟩ := c
      simp only [Memory.sortedFrom, Bool.and_eq_true, decide_eq_true_eq] at hn
      have := h k hn.1.2
      simp [Memory.read] at this
  | cons c m ih =>
    obtain ⟨k, w⟩ := c
    simp only [Memory.sortedFrom, Bool.and_eq_true, decide_eq_true_eq] at hm
    obtain ⟨⟨h1, h2⟩, h3⟩ := hm
    cases n with
    | nil =>
      have := h k h2
      simp [Memory.read] at this
    | cons c' n =>
      obtain ⟨k', w'⟩ := c'
      simp only [Memory.sortedFrom, Bool.and_eq_true, decide_eq_true_eq] at hn
      obtain ⟨⟨h1', h2'⟩, h3'⟩ := hn
      have hk : k = k' := by
        rcases Nat.lt_trichotomy k k' with hlt | heq | hgt
        · have := h k h2
          simp [Memory.read, show k' ≠ k by omega, Memory.read_below h3' (by omega : k < k' + 1)] at this
        · exact heq
        · have := h k' h2'
          simp [Memory.read, show k ≠ k' by omega, Memory.read_below h3 (by omega : k' < k + 1)] at this
      subst hk
      have hw : w = w' := by simpa [Memory.read] using h k h2
      subst hw
      rw [ih h3 h3' fun a ha => ?_]
      rcases Nat.lt_or_ge k a with hka | hka
      · simpa [Memory.read, show k ≠ a by omega] using h a ha
      · rw [Memory.read_below h3 (by omega), Memory.read_below h3' (by omega)]

/-- Two tables in canonical form that read alike in every cell are equal. -/
theorem Memory.wf_ext {m n : Memory} (hm : m.wf = true) (hn : n.wf = true)
    (h : ∀ b : Byte, memRead m b = memRead n b) : m = n :=
  Memory.sortedFrom_ext hm hn fun a ha => by
    have := h (BitVec.ofNat 8 a)
    simpa [memRead, Nat.mod_eq_of_lt ha] using this

@[simp] theorem memRead_nil (b : Byte) : memRead [] b = none := rfl

/-- What a table reads as after one `MemWrite`: the written cell the value, every other cell what it read before. -/
theorem memRead_memWrite (m : Memory) (a b v : Byte) :
    memRead (memWrite m a v) b = if b = a then some v else memRead m b := by
  unfold memRead memWrite
  split
  · next e => subst e; exact Memory.read_write_same _ _ _
  · next e => exact Memory.read_write_other _ _ fun h => e (BitVec.eq_of_toNat_eq h).symm

theorem wf_memWrite {m : Memory} (a v : Byte) (hm : m.wf = true) : (memWrite m a v).wf = true :=
  Memory.wf_write hm a.isLt

end Sys2Proof.Machine
end

