-- ==== Sys2Proof/Laws/Sbox.lean ====
section
/-! SUPPORT. What the operations of the S-box generator do to the cells of the tables, and that they keep the canonical
form (spec/42_sbox_generator.md R71 to R75). -/

namespace Sys2Proof.Machine

theorem mem_byteValues (b : Byte) : b ∈ byteValues := by
  simp only [byteValues, List.mem_map, List.mem_range]
  exact ⟨b.toNat, b.isLt, by simp⟩

theorem tableFull_iff (t : Memory) : tableFull t = true ↔ ∀ b, ∃ v, memRead t b = some v := by
  simp only [tableFull, List.all_eq_true, Option.isSome_iff_exists]
  exact ⟨fun h b => h b (mem_byteValues b), fun h b _ => h b⟩

/-- A fill of the listed cells with their own index. -/
theorem memRead_fill (l : List Byte) (t : Memory) (c : Byte) :
    memRead (l.foldl (fun t b => memWrite t b b) t) c = if c ∈ l then some c else memRead t c := by
  induction l generalizing t with
  | nil => simp
  | cons b l ih =>
    rw [List.foldl_cons, ih, memRead_memWrite]
    by_cases hl : c ∈ l
    · simp [hl]
    · by_cases hb : c = b <;> simp [hl, hb]

/-- A swap reads as the table did with the two indexes exchanged. -/
theorem memRead_swapCells {t : Memory} {i j vi vj : Byte} (hi : memRead t i = some vi) (hj : memRead t j = some vj)
    (b : Byte) : memRead (swapCells t i j) b = memRead t (Equiv.swap i j b) := by
  simp only [swapCells, hi, hj, memRead_memWrite, Equiv.swap_apply_def]
  by_cases hbj : b = j
  · subst hbj
    by_cases hbi : b = i
    · subst hbi; simp_all
    · simp [hbi, hi]
  · by_cases hbi : b = i
    · subst hbi; simp [hbj, hj]
    · simp [hbi, hbj]

/-- Every cell holds a value and no value is held twice. -/
def Memory.Bijective (t : Memory) : Prop :=
  (∀ b, ∃ v, memRead t b = some v) ∧ ∀ b c v, memRead t b = some v → memRead t c = some v → b = c

theorem swapCells_bijective {t : Memory} (h : t.Bijective) (i j : Byte) : (swapCells t i j).Bijective := by
  obtain ⟨vi, hi⟩ := h.1 i
  obtain ⟨vj, hj⟩ := h.1 j
  refine ⟨fun b => ?_, fun b c v hb hc => ?_⟩
  · rw [memRead_swapCells hi hj]; exact h.1 _
  · rw [memRead_swapCells hi hj] at hb hc
    exact (Equiv.swap i j).injective (h.2 _ _ _ hb hc)

/-- "swaps preserve bijectivity regardless of count or repetition" (R75), whatever the generator. -/
theorem swapLoop_bijective {σ : Type} (g : Prng σ) (n : Nat) (x : σ) {t : Memory} (h : t.Bijective) :
    (swapLoop g n x t).2.Bijective := by
  induction n generalizing x t with
  | zero => exact h
  | succ n ih => exact ih _ (swapCells_bijective h _ _)

/-- What the inverse table holds after the listed forward cells have been inverted into it: the index of a cell that
holds `v`, if one of them does, and else what it held. -/
theorem memRead_invert {t : Memory} (h : ∀ b c v, memRead t b = some v → memRead t c = some v → b = c) (l : List Byte)
    (inv : Memory) (v : Byte) :
    (∀ b ∈ l, memRead t b = some v →
      memRead (l.foldl (fun inv b => match memRead t b with | some v => memWrite inv v b | none => inv) inv) v =
        some b) ∧
    ((∀ b ∈ l, memRead t b ≠ some v) →
      memRead (l.foldl (fun inv b => match memRead t b with | some v => memWrite inv v b | none => inv) inv) v =
        memRead inv v) := by
  induction l generalizing inv with
  | nil => simp
  | cons a l ih =>
    simp only [List.foldl_cons]
    refine ⟨fun b hb hv => ?_, fun hno => ?_⟩
    · by_cases hbl : b ∈ l
      · exact (ih _).1 b hbl hv
      · obtain rfl : b = a := by simpa [hbl] using hb
        rw [(ih _).2 fun c hc hcv => hbl (h b c v hv hcv ▸ hc)]
        simp [hv, memRead_memWrite]
    · rw [(ih _).2 fun b hb => hno b (List.mem_cons_of_mem _ hb)]
      have ha := hno a List.mem_cons_self
      cases hr : memRead t a with
      | none => rfl
      | some w =>
        have : v ≠ w := fun e => ha (by rw [hr, e])
        simp [memRead_memWrite, this]

theorem sbInv_eq (t inv : Memory) : sbInv t inv =
    byteValues.foldl (fun inv b => match memRead t b with | some v => memWrite inv v b | none => inv) inv := by
  unfold sbInv
  exact Eq.refl _

/-- `SBINV` of a bijective table makes its inverse table, both ways, whatever the second table held before (R73). -/
theorem sbInv_inverse {t : Memory} (h : t.Bijective) (inv : Memory) : InverseTables t (sbInv t inv) := by
  have key : ∀ b v, memRead t b = some v → memRead (sbInv t inv) v = some b := fun b v hv => by
    rw [sbInv_eq]
    exact (memRead_invert h.2 byteValues inv v).1 b (mem_byteValues b) hv
  refine ⟨fun b => ?_, fun v => ?_⟩
  · obtain ⟨v, hv⟩ := h.1 b
    exact ⟨v, hv, key b v hv⟩
  · choose f hf using h.1
    have hinj : Function.Injective f := fun b c e => h.2 b c (f b) (hf b) (e ▸ hf c)
    have : Finite Byte := Finite.of_injective BitVec.toFin fun a b h => by cases a; cases b; simpa using h
    obtain ⟨b, hb⟩ := (Finite.injective_iff_surjective.mp hinj) v
    exact ⟨b, key b v (hb ▸ hf b), hb ▸ hf b⟩

/-! ### The operations see only the cells -/

theorem sameCells_memWrite {t u : Memory} (h : SameCells t u) (a v : Byte) :
    SameCells (memWrite t a v) (memWrite u a v) := fun b => by
  simp [memRead_memWrite, h b]

theorem sameCells_swapCells {t u : Memory} (h : SameCells t u) (i j : Byte) :
    SameCells (swapCells t i j) (swapCells u i j) := by
  simp only [swapCells, ← h i, ← h j]
  split
  · exact sameCells_memWrite (sameCells_memWrite h _ _) _ _
  · exact h

/-- The swap loop ends in the same generator state and the same cells from tables with the same cells. -/
theorem swapLoop_sameCells {σ : Type} (g : Prng σ) (n : Nat) (x : σ) {t u : Memory} (h : SameCells t u) :
    (swapLoop g n x t).1 = (swapLoop g n x u).1 ∧ SameCells (swapLoop g n x t).2 (swapLoop g n x u).2 := by
  induction n generalizing x t u with
  | zero => exact ⟨rfl, h⟩
  | succ n ih => exact ih _ (sameCells_swapCells h _ _)

theorem sbInit_eq (t : Memory) : sbInit t = byteValues.foldl (fun t b => memWrite t b b) t := by
  unfold sbInit
  exact Eq.refl _

/-- `SBINIT` forgets what the table held (R71). -/
theorem sbInit_sameCells (t u : Memory) : SameCells (sbInit t) (sbInit u) := fun b => by
  rw [sbInit_eq, sbInit_eq, memRead_fill, memRead_fill, if_pos (mem_byteValues b), if_pos (mem_byteValues b)]

/-- The fresh identity table is bijective. -/
theorem sbInit_bijective (t : Memory) : (sbInit t).Bijective := by
  have h : ∀ b, memRead (sbInit t) b = some b := fun b => by
    rw [sbInit_eq, memRead_fill, if_pos (mem_byteValues b)]
  refine ⟨fun b => ⟨b, h b⟩, fun b c v hb hc => ?_⟩
  rw [h] at hb hc
  exact (Option.some.inj hb).trans (Option.some.inj hc).symm

theorem sboxGen_eq (k : Key) : sboxGen k = sboxGenWith xs64 Config.nswaps k := by
  unfold sboxGen
  exact Eq.refl _

/-- The two tables of a key, as the swap loop and `SBINV` make them from nothing (R74). -/
theorem sboxGenWith_fst {σ : Type} (g : Prng σ) (n : Nat) (k : Key) :
    (sboxGenWith g n k).1 = (swapLoop g n (g.seed k) (sbInit [])).2 := by
  unfold sboxGenWith sboxOf
  exact Eq.refl _

theorem sboxGenWith_snd {σ : Type} (g : Prng σ) (n : Nat) (k : Key) :
    (sboxGenWith g n k).2 = sbInv (sboxGenWith g n k).1 [] := by
  unfold sboxGenWith
  exact Eq.refl _

/-- Two inverse tables of tables with the same cells have the same cells. -/
theorem inverseTables_sameCells {t u i j : Memory} (h : SameCells t u) (hi : InverseTables t i)
    (hj : InverseTables u j) : SameCells i j := fun v => by
  obtain ⟨b, hb, hbv⟩ := hi.2 v
  obtain ⟨w, hw, hwb⟩ := hj.1 b
  rw [h b, hw] at hbv
  cases hbv
  rw [hb, hwb]

/-! ### The canonical form -/

theorem wf_swapCells {t : Memory} (h : t.wf = true) (i j : Byte) : (swapCells t i j).wf = true := by
  unfold swapCells
  split
  · exact wf_memWrite _ _ (wf_memWrite _ _ h)
  · exact h

theorem wf_swapLoop {σ : Type} (g : Prng σ) (n : Nat) (x : σ) {t : Memory} (h : t.wf = true) :
    (swapLoop g n x t).2.wf = true := by
  induction n generalizing x t with
  | zero => exact h
  | succ n ih => exact ih _ (wf_swapCells h _ _)

theorem wf_foldl {f : Memory → Byte → Memory} (hf : ∀ m b, m.wf = true → (f m b).wf = true) (l : List Byte)
    {t : Memory} (h : t.wf = true) : (l.foldl f t).wf = true := by
  induction l generalizing t with
  | nil => exact h
  | cons b l ih => exact ih (hf _ _ h)

theorem wf_sbInit {t : Memory} (h : t.wf = true) : (sbInit t).wf = true := by
  unfold sbInit
  exact wf_foldl (fun _ b hm => wf_memWrite b b hm) _ h

theorem wf_sbInv (t : Memory) {inv : Memory} (h : inv.wf = true) : (sbInv t inv).wf = true := by
  rw [sbInv_eq]
  exact wf_foldl (fun m b hm => by split <;> [exact wf_memWrite _ _ hm; exact hm]) _ h

end Sys2Proof.Machine
end

