-- ==== Sys2Proof/Laws/Layers.lean ====
section
/-! SUPPORT. What a pass over the lanes answers (spec/43_permutation_substitution.md R82, R83): where it completes, and
what each placed lane then holds. -/

namespace Sys2Proof.Machine

/-- A lane nothing is placed at keeps its byte. -/
theorem substLanes_other {t : Memory} {place : Lane → Lane} {x : Block} {l : List Lane} {y z : Block}
    (h : substLanes t place x l y = some z) {d : Lane} (hd : ∀ i ∈ l, place i ≠ d) : byteOf z d = byteOf y d := by
  induction l generalizing y with
  | nil => cases h; rfl
  | cons i l ih =>
    simp only [substLanes] at h
    split at h
    · cases h
    · rw [ih h fun j hj => hd j (List.mem_cons_of_mem _ hj), byteOf_setByte,
        if_neg fun e => hd i List.mem_cons_self e.symm]

/-- Each lane of the list is substituted and placed, where no two are placed at one lane. -/
theorem substLanes_placed {t : Memory} {place : Lane → Lane} (hp : Function.Injective place) {x : Block}
    {l : List Lane} (hl : l.Nodup) {y z : Block} (h : substLanes t place x l y = some z) {i : Lane} (hi : i ∈ l) :
    memRead t (byteOf x i) = some (byteOf z (place i)) := by
  induction l generalizing y with
  | nil => cases hi
  | cons j l ih =>
    simp only [substLanes] at h
    obtain ⟨hj, hl⟩ := List.nodup_cons.mp hl
    split at h
    · cases h
    · next v hv =>
      rcases List.mem_cons.mp hi with rfl | hi
      · rw [substLanes_other h fun k hk e => hj (by rw [← hp e]; exact hk), byteOf_setByte, if_pos rfl, hv]
      · exact ih hl h hi

/-- The pass completes exactly when every cell it reads holds a value. -/
theorem substLanes_isSome {t : Memory} {place : Lane → Lane} {x : Block} (l : List Lane) (y : Block)
    (h : ∀ i ∈ l, ∃ v, memRead t (byteOf x i) = some v) : ∃ z, substLanes t place x l y = some z := by
  induction l generalizing y with
  | nil => exact ⟨y, rfl⟩
  | cons i l ih =>
    obtain ⟨v, hv⟩ := h i List.mem_cons_self
    simp only [substLanes, hv]
    exact ih _ fun j hj => h j (List.mem_cons_of_mem _ hj)

/-- The pass sees only the cells of the table. -/
theorem substLanes_sameCells {t u : Memory} (h : SameCells t u) (place : Lane → Lane) (x : Block) (l : List Lane)
    (y : Block) : substLanes t place x l y = substLanes u place x l y := by
  induction l generalizing y with
  | nil => rfl
  | cons i l ih => simp only [substLanes, h (byteOf x i), ih]

theorem lanes_nodup : lanes.Nodup := by decide

theorem permRead_injective : Function.Injective permRead := by decide

theorem invPermRead_injective : Function.Injective invPermRead := by decide

theorem pSub_sameCells {t u : Memory} (h : SameCells t u) (x : Block) : pSub x t = pSub x u :=
  substLanes_sameCells h _ _ _ _

theorem ipSub_sameCells {t u : Memory} (h : SameCells t u) (x : Block) : ipSub x t = ipSub x u :=
  substLanes_sameCells h _ _ _ _

theorem pSub_isSome {t : Memory} (h : tableFull t = true) (x : Block) : ∃ y, pSub x t = some y :=
  substLanes_isSome _ _ fun _ _ => (tableFull_iff t).mp h _

theorem ipSub_isSome {t : Memory} (h : tableFull t = true) (x : Block) : ∃ y, ipSub x t = some y :=
  substLanes_isSome _ _ fun _ _ => (tableFull_iff t).mp h _

end Sys2Proof.Machine
end

