-- ==== Sys2Proof/Laws/Controller.lean ====
section
/-! SUPPORT. What the controller's sequences answer: the functions of spec/45_round_controller.md R102 and R103, on the
operand in `INB`, with everything but the working registers left alone; and what the construct sequence leaves. -/

namespace Sys2Proof.Machine

/-- The round numbers, one by one (R102). -/
theorem rounds_eq : Config.rounds = [1#2, 2#2, 3#2] := rfl

/-- `t` differs from `s` at most in `PHASE`, `ST` and `RND`: what the block sequences work on. -/
def WorkOnly (s t : State) : Prop := ∃ p x r, t = { s with phase := p, st := x, rnd := r }

theorem WorkOnly.trans {s t u : State} (h : WorkOnly s t) (h' : WorkOnly t u) : WorkOnly s u := by
  obtain ⟨_, _, _, rfl⟩ := h
  obtain ⟨p, x, r, rfl⟩ := h'
  exact ⟨p, x, r, rfl⟩

theorem WorkOnly.sameInstance {s t : State} (h : WorkOnly s t) : SameInstance s t := by
  obtain ⟨_, _, _, rfl⟩ := h
  exact ⟨rfl, rfl, rfl, rfl⟩

theorem WorkOnly.port {s t : State} (h : WorkOnly s t) :
    t.hostIn = s.hostIn ∧ t.rspSent = s.rspSent ∧ t.rspPending = s.rspPending ∧ t.draws = s.draws := by
  obtain ⟨_, _, _, rfl⟩ := h
  exact ⟨rfl, rfl, rfl, rfl⟩

theorem WorkOnly.readRk {s t : State} (h : WorkOnly s t) : t.readRk = s.readRk := by
  obtain ⟨_, _, _, rfl⟩ := h
  rfl

/-- A run of operations computes `r`: it completes with `r` in `ST` and only working registers changed, or, where `r`
is absent, stops with fault `f`. -/
def Computes (r : Option Block) (f : Fault) (s : State) (o : Except Fault State) : Prop :=
  match r with
  | some y => ∃ t, o = .ok t ∧ t.st = y ∧ WorkOnly s t
  | none => o = .error f

theorem Computes.some {y : Block} {f : Fault} {s : State} {o : Except Fault State} (h : Computes (some y) f s o) :
    ∃ t, o = .ok t ∧ t.st = y ∧ WorkOnly s t := h

theorem Computes.of_workOnly {r : Option Block} {f : Fault} {s t : State} {o : Except Fault State}
    (h : Computes r f t o) (hw : WorkOnly s t) : Computes r f s o := by
  cases r with
  | none => exact h
  | some y =>
    obtain ⟨u, h1, h2, h3⟩ := h
    exact ⟨u, h1, h2, hw.trans h3⟩

theorem runOps_append (a b : List Op) (s : State) :
    runOps (a ++ b) s = match runOps a s with | .ok t => runOps b t | .error f => .error f := by
  induction a generalizing s with
  | nil => rfl
  | cons op a ih =>
    simp only [List.cons_append, runOps]
    cases runOp op s with
    | ok t => exact ih t
    | error f => rfl

theorem runOps_psubop (ops : List Op) (s : State) :
    runOps (.psubop :: ops) s =
      match pSub s.st s.sbox with
      | some y => runOps ops { s with phase := .psubop, st := y }
      | none => .error (.unwrittenCell .sbox) := by
  simp only [runOps, runOp, opPsubop]
  cases pSub s.st s.sbox <;> rfl

theorem runOps_ipsubop (ops : List Op) (s : State) :
    runOps (.ipsubop :: ops) s =
      match ipSub s.st s.invsbox with
      | some y => runOps ops { s with phase := .ipsubop, st := y }
      | none => .error (.unwrittenCell .invsbox) := by
  simp only [runOps, runOp, opIpsubop]
  cases ipSub s.st s.invsbox <;> rfl

/-- The rounds of the encrypt sequence compute `encryptRounds` of `ST`. -/
theorem runOps_encryptRounds (rs : List (BitVec 2)) (s : State) :
    Computes (encryptRounds s.readRk s.sbox rs s.st) (.unwrittenCell .sbox) s
      (runOps (rs.flatMap fun r => [.diffop, .psubop, .ark r]) s) := by
  induction rs generalizing s with
  | nil => exact ⟨s, rfl, rfl, _, _, _, rfl⟩
  | cons r rs ih =>
    have hrun : runOps ((r :: rs).flatMap fun r => [.diffop, .psubop, .ark r]) s =
        match pSub (diff s.st) s.sbox with
        | some y => runOps (rs.flatMap fun r => [.diffop, .psubop, .ark r])
            (opArk r { opDiffop s with phase := .psubop, st := y })
        | none => .error (.unwrittenCell .sbox) := by
      change runOps (.psubop :: .ark r :: rs.flatMap fun r => [.diffop, .psubop, .ark r]) (opDiffop s) = _
      rw [runOps_psubop]
      rfl
    rw [hrun, encryptRounds]
    cases pSub (diff s.st) s.sbox with
    | none => exact rfl
    | some y =>
      exact (ih (opArk r { opDiffop s with phase := .psubop, st := y })).of_workOnly ⟨_, _, _, rfl⟩

/-- The encrypt sequence computes `Encrypt` of the operand in `INB` (R102). -/
theorem runOps_encryptOps (s : State) :
    Computes (encrypt s.inb s.readRk s.sbox) (.unwrittenCell .sbox) s (runOps encryptOps s) :=
  (runOps_encryptRounds Config.rounds (opArk 0#2 (opLdst s))).of_workOnly ⟨_, _, _, rfl⟩

/-- The rounds of the decrypt sequence compute `decryptRounds` of `ST`. -/
theorem runOps_decryptRounds (rs : List (BitVec 2)) (s : State) :
    Computes (decryptRounds s.readRk s.invsbox rs s.st) (.unwrittenCell .invsbox) s
      (runOps (rs.flatMap fun r => [.ark r, .ipsubop, .diffop]) s) := by
  induction rs generalizing s with
  | nil => exact ⟨s, rfl, rfl, _, _, _, rfl⟩
  | cons r rs ih =>
    have hrun : runOps ((r :: rs).flatMap fun r => [.ark r, .ipsubop, .diffop]) s =
        match ipSub (s.st ^^^ s.readRk r) s.invsbox with
        | some y => runOps (rs.flatMap fun r => [.ark r, .ipsubop, .diffop])
            (opDiffop { opArk r s with phase := .ipsubop, st := y })
        | none => .error (.unwrittenCell .invsbox) := by
      change runOps (.ipsubop :: .diffop :: rs.flatMap fun r => [.ark r, .ipsubop, .diffop]) (opArk r s) = _
      rw [runOps_ipsubop]
      rfl
    rw [hrun, decryptRounds]
    cases ipSub (s.st ^^^ s.readRk r) s.invsbox with
    | none => exact rfl
    | some y =>
      exact (ih (opDiffop { opArk r s with phase := .ipsubop, st := y })).of_workOnly ⟨_, _, _, rfl⟩

/-- The decrypt sequence computes `Decrypt` of the operand in `INB` (R103). -/
theorem runOps_decryptOps (s : State) :
    Computes (decrypt s.inb s.readRk s.invsbox) (.unwrittenCell .invsbox) s (runOps decryptOps s) := by
  have h := (runOps_decryptRounds Config.rounds.reverse (opLdst s)).of_workOnly (s := s) ⟨_, _, _, rfl⟩
  have hrun : runOps decryptOps s =
      match runOps (Config.rounds.reverse.flatMap fun r => [.ark r, .ipsubop, .diffop]) (opLdst s) with
      | .ok t => .ok (opArk 0#2 t)
      | .error f => .error f := by
    change runOps (_ ++ [Op.ark 0#2]) (opLdst s) = _
    rw [runOps_append]
    rfl
  rw [hrun]
  change Computes (match decryptRounds s.readRk s.invsbox Config.rounds.reverse s.inb with
    | some x => some (x ^^^ s.readRk 0#2) | none => none) _ _ _
  change Computes (decryptRounds s.readRk s.invsbox Config.rounds.reverse s.inb) _ _ _ at h
  revert h
  cases decryptRounds s.readRk s.invsbox Config.rounds.reverse s.inb with
  | none => intro h; rw [show _ = _ from h]; exact rfl
  | some z =>
    rintro ⟨t, h1, rfl, h3⟩
    rw [h1]
    exact ⟨opArk 0#2 t, rfl, by rw [opArk_st, h3.readRk], h3.trans ⟨_, _, _, rfl⟩⟩

theorem runOps_diffOps (s : State) : ∃ t, runOps diffOps s = .ok t ∧ t.st = diff s.inb ∧ WorkOnly s t :=
  ⟨opDiffop (opLdst s), rfl, rfl, _, _, _, rfl⟩

theorem runOps_psubOps (s : State) :
    Computes (pSub s.inb s.sbox) (.unwrittenCell .sbox) s (runOps psubOps s) := by
  change Computes _ _ _ (runOps [.psubop] (opLdst s))
  rw [runOps_psubop]
  change Computes (pSub s.inb s.sbox) _ _ (match pSub s.inb s.sbox with | some y => _ | none => _)
  cases pSub s.inb s.sbox with
  | none => exact rfl
  | some y => exact ⟨_, rfl, rfl, _, _, _, rfl⟩

theorem runOps_ipsubOps (s : State) :
    Computes (ipSub s.inb s.invsbox) (.unwrittenCell .invsbox) s (runOps ipsubOps s) := by
  change Computes _ _ _ (runOps [.ipsubop] (opLdst s))
  rw [runOps_ipsubop]
  change Computes (ipSub s.inb s.invsbox) _ _ (match ipSub s.inb s.invsbox with | some y => _ | none => _)
  cases ipSub s.inb s.invsbox with
  | none => exact rfl
  | some y => exact ⟨_, rfl, rfl, _, _, _, rfl⟩

/-- The construct sequence always completes (R105); its state, by the operations in order. -/
theorem runOps_constructOps (s : State) :
    runOps constructOps s = .ok (opSbinv (opSbswap (opSbinit (opSeed (opKs s))))) := by
  simp only [constructOps, runOps, runOp]

end Sys2Proof.Machine
end

