-- ==== Sys2Proof/Laws/Commands.lean ====
section
/-! SUPPORT. Everything a command can do, said once for `KEY` and once for the block commands (spec/46_commands.md R115
to R121): later proofs cite these and unfold no meaning. -/

namespace Sys2Proof.Machine

/-- `t` answers `s` with the response, leaves the architectural state alone and is about to send. -/
def Answered (s t : State) (status : Status) (data : Option Block) : Prop :=
  AnswersWith s t status data ∧ SameInstance s t ∧ t.phase = if status = .ok then .resp else .err

theorem checking_sameInstance (s : State) (o : Byte) (p : List Byte) : SameInstance s (s.checking o p) :=
  ⟨rfl, rfl, rfl, rfl⟩

theorem checking_inb {p : List Byte} (s : State) (o : Byte) (h : p.length = 16) : (s.checking o p).inb = pack p := by
  rw [State.checking_inb, latchInb_eq_pack h]

/-- Taking an error (R136, R137). -/
theorem raise_answered (s : State) (o : Byte) (p : List Byte) {e : Status} (he : e ≠ .ok) :
    Answered s ((s.checking o p).raise e) e none :=
  ⟨⟨rfl, rfl, rfl⟩, ⟨rfl, rfl, rfl, rfl⟩, (if_neg he).symm⟩

theorem Answered.sending {s t : State} {status : Status} {data : Option Block} (h : Answered s t status data) :
    t.phase = .resp ∨ t.phase = .err := by
  rw [h.2.2]
  split
  · exact Or.inl rfl
  · exact Or.inr rfl

/-- The checks of R115, one case each. -/
theorem checkedCommand_cases (o : Byte) (p : List Byte) (e : Status) (nk : Bool)
    (w : State → Host.Outcome State Fault Refusal) (s : State) :
    (p.length ≠ 16 ∧ checkedCommand o p e nk w s = .next ((s.checking o p).raise e)) ∨
    (p.length = 16 ∧ nk = true ∧ s.keyValid = false ∧
      checkedCommand o p e nk w s = .next ((s.checking o p).raise .noKey)) ∨
    (p.length = 16 ∧ (nk = true → s.keyValid = true) ∧ checkedCommand o p e nk w s = w (s.checking o p)) := by
  unfold checkedCommand Config.blockBytes State.lacksKey
  by_cases h : p.length = 16
  · cases nk <;> cases hk : s.keyValid <;> simp [h]
  · simp [h]

/-- Whether a command needs a key (R49). -/
def needsKey : Instr → Bool
  | .key _ => false
  | .enc _ => true
  | .dec _ => true
  | .diff _ => false
  | .psub _ => true
  | .ipsub _ => true

/-- The block a block command computes from its operand on a state that passes the checks; `none` where it reads a cell
that holds no value. -/
def blockResult (i : Instr) (s : State) : Option Block :=
  match i with
  | .key _ => none
  | .enc p => encrypt (pack p) s.readRk s.sbox
  | .dec p => decrypt (pack p) s.readRk s.invsbox
  | .diff p => some (diff (pack p))
  | .psub p => pSub (pack p) s.sbox
  | .ipsub p => ipSub (pack p) s.invsbox

/-- A sequence that computes a block, run by a command: it answers `OK` with the block, or faults. -/
theorem respondBlock_cases {r : Option Block} {f : Fault} {ops : List Op} {s u : State} (hi : SameInstance s u)
    (hh : u.hostIn = s.hostIn ∧ u.rspSent = s.rspSent) (h : Computes r f u (runOps ops u)) :
    (∃ y t, r = some y ∧ respondBlock ops u = .next t ∧ Answered s t .ok (some y)) ∨
    (r = none ∧ respondBlock ops u = .fault f) := by
  cases r with
  | none => right; exact ⟨rfl, by rw [respondBlock, show runOps ops u = .error f from h]⟩
  | some y =>
    left
    obtain ⟨t, ht, rfl, hw⟩ := h
    refine ⟨_, _, rfl, by rw [respondBlock, ht], ⟨rfl, ?_, ?_⟩, ?_, rfl⟩
    · rw [State.respond_hostIn, hw.port.1, hh.1]
    · rw [State.respond_rspSent, hw.port.2.1, hh.2]
    · obtain ⟨h1, h2, h3, h4⟩ := hw.sameInstance
      obtain ⟨g1, g2, g3, g4⟩ := hi
      exact ⟨h1.trans g1, h2.trans g2, h3.trans g3, h4.trans g4⟩

/-- Everything a block command can do (R117 to R121). -/
theorem exec_block_cases (i : Instr) (hi : isBlockCommand i = true) (s : State) :
    (i.payload.length ≠ 16 ∧ ∃ t, exec i s = .next t ∧ Answered s t .invalidBlockLength none) ∨
    (i.payload.length = 16 ∧ needsKey i = true ∧ s.keyValid = false ∧
      ∃ t, exec i s = .next t ∧ Answered s t .noKey none) ∨
    (i.payload.length = 16 ∧ (needsKey i = true → s.keyValid = true) ∧
      ((∃ y t, blockResult i s = some y ∧ exec i s = .next t ∧ Answered s t .ok (some y)) ∨
        (blockResult i s = none ∧ ∃ f, exec i s = .fault f ∧
          f = .unwrittenCell (match i with | .dec _ => .invsbox | .ipsub _ => .invsbox | _ => .sbox)))) := by
  have main : ∀ (o : Byte) (p : List Byte) (nk : Bool) (ops : List Op) (f : Fault) (r : Option Block),
      (p.length = 16 → Computes r f (s.checking o p) (runOps ops (s.checking o p))) →
      (p.length ≠ 16 ∧ ∃ t, checkedCommand o p .invalidBlockLength nk (respondBlock ops) s = .next t ∧
        Answered s t .invalidBlockLength none) ∨
      (p.length = 16 ∧ nk = true ∧ s.keyValid = false ∧
        ∃ t, checkedCommand o p .invalidBlockLength nk (respondBlock ops) s = .next t ∧ Answered s t .noKey none) ∨
      (p.length = 16 ∧ (nk = true → s.keyValid = true) ∧
        ((∃ y t, r = some y ∧ checkedCommand o p .invalidBlockLength nk (respondBlock ops) s = .next t ∧
            Answered s t .ok (some y)) ∨
          (r = none ∧ ∃ f', checkedCommand o p .invalidBlockLength nk (respondBlock ops) s = .fault f' ∧ f' = f))) := by
    intro o p nk ops f r hc
    rcases checkedCommand_cases o p .invalidBlockLength nk (respondBlock ops) s with ⟨h, e⟩ | ⟨h, hn, hk, e⟩ | ⟨h, hk, e⟩
    · exact Or.inl ⟨h, _, e, raise_answered s o p (by decide)⟩
    · exact Or.inr (Or.inl ⟨h, hn, hk, _, e, raise_answered s o p (by decide)⟩)
    · refine Or.inr (Or.inr ⟨h, hk, ?_⟩)
      rcases respondBlock_cases (checking_sameInstance s o p) ⟨rfl, rfl⟩ (hc h) with ⟨y, t, hr, ht, ha⟩ | ⟨hr, ht⟩
      · exact Or.inl ⟨y, t, hr, e.trans ht, ha⟩
      · exact Or.inr ⟨hr, f, e.trans ht, rfl⟩
  cases i with
  | key p => cases hi
  | enc p =>
    refine main opcodeEnc p true encryptOps _ _ fun h => ?_
    have := runOps_encryptOps (s.checking opcodeEnc p)
    rwa [checking_inb s _ h] at this
  | dec p =>
    refine main opcodeDec p true decryptOps _ _ fun h => ?_
    have := runOps_decryptOps (s.checking opcodeDec p)
    rwa [checking_inb s _ h] at this
  | diff p =>
    refine main opcodeDiff p false diffOps _ _ fun h => ?_
    have := runOps_diffOps (s.checking opcodeDiff p)
    rwa [checking_inb s _ h] at this
  | psub p =>
    refine main opcodePsub p true psubOps _ _ fun h => ?_
    have := runOps_psubOps (s.checking opcodePsub p)
    rwa [checking_inb s _ h] at this
  | ipsub p =>
    refine main opcodeIpsub p true ipsubOps _ _ fun h => ?_
    have := runOps_ipsubOps (s.checking opcodeIpsub p)
    rwa [checking_inb s _ h] at this

/-- The instance a `KEY` leaves does not depend on what the tables held before. -/
theorem construct_tables (s : State) :
    SameCells (opSbinv (opSbswap (opSbinit (opSeed (opKs s))))).sbox (sboxGen s.inb).1 ∧
    SameCells (opSbinv (opSbswap (opSbinit (opSeed (opKs s))))).invsbox (sboxGen s.inb).2 := by
  have h1 := (swapLoop_sameCells xs64 Config.nswaps (xs64.seed s.inb) (sbInit_sameCells s.sbox [])).2
  have hb := fun t => swapLoop_bijective xs64 Config.nswaps (xs64.seed s.inb) (sbInit_bijective t)
  simp only [opSbinv_sbox, opSbswap_sbox, opSbinit_sbox, opSbinit_prng, opSeed_prng, opKs_inb, opSeed_sbox, opKs_sbox,
    opSbinv_invsbox, opSbswap_invsbox, opSbinit_invsbox, opSeed_invsbox, opKs_invsbox, sboxGen_eq, sboxGenWith_snd,
    sboxGenWith_fst]
  exact ⟨h1, inverseTables_sameCells h1 (sbInv_inverse (hb _) _) (sbInv_inverse (hb _) _)⟩

/-- Everything `KEY` can do (R116). -/
theorem exec_key_cases (p : List Byte) (s : State) :
    (p.length ≠ 16 ∧ ∃ t, exec (.key p) s = .next t ∧ Answered s t .invalidKeyLength none) ∨
    (p.length = 16 ∧ ∃ t, exec (.key p) s = .next t ∧ AnswersWith s t .ok none ∧ t.phase = .resp ∧
      t.keyValid = true ∧ HoldsInstance t (pack p) ∧
      (s.sbox.wf = true → t.sbox.wf = true) ∧ (s.invsbox.wf = true → t.invsbox.wf = true)) := by
  rcases checkedCommand_cases opcodeKey p .invalidKeyLength false constructAndRespond s with
    ⟨h, e⟩ | ⟨h, hn, -, -⟩ | ⟨h, -, e⟩
  · exact Or.inl ⟨h, _, e, raise_answered s _ p (by decide)⟩
  · cases hn
  · refine Or.inr ⟨h, _, e.trans (by rw [constructAndRespond, runOps_constructOps]), ⟨rfl, ?_, ?_⟩, rfl, ?_, ?_, ?_, ?_⟩
    · simp
    · simp
    · simp
    · have ht := construct_tables (s.checking opcodeKey p)
      rw [checking_inb s _ h] at ht
      refine ⟨?_, ?_, ?_⟩
      · simp only [State.respond_rk, State.setKeyValid_rk, opSbinv_rk, opSbswap_rk, opSbinit_rk, opSeed_rk, opKs_rk,
          checking_inb s _ h]
      · rw [State.respond_sbox, State.setKeyValid_sbox]; exact ht.1
      · rw [State.respond_invsbox, State.setKeyValid_invsbox]; exact ht.2
    · intro hw
      simp only [State.respond_sbox, State.setKeyValid_sbox, opSbinv_sbox, opSbswap_sbox, opSbinit_sbox, opSeed_sbox,
        opKs_sbox, State.checking_sbox]
      exact wf_swapLoop _ _ _ (wf_sbInit hw)
    · intro hw
      simp only [State.respond_invsbox, State.setKeyValid_invsbox, opSbinv_invsbox, opSbswap_invsbox,
        opSbinit_invsbox, opSeed_invsbox, opKs_invsbox, State.checking_invsbox]
      exact wf_sbInv _ hw

end Sys2Proof.Machine
end

