-- ==== Sys2Proof/Laws/PerInstr.lean ====
section
/-! SUPPORT. Per command, as syntax: the packet of a command decodes to that command (spec/30_encoding.md R46, R49). -/

/-- The packet a command is sent as decodes to it. -/
def Sys2Proof.Laws.Encoding.Statement (i : Sys2Proof.Instr) : Prop := Sys2Proof.decode (Sys2Proof.encode i) = .ok i

namespace Sys2Proof.Laws.Encoding

theorem key (payload : List Byte) : Statement (.key payload) := rfl

theorem enc (payload : List Byte) : Statement (.enc payload) := rfl

theorem dec (payload : List Byte) : Statement (.dec payload) := rfl

theorem diff (payload : List Byte) : Statement (.diff payload) := rfl

theorem psub (payload : List Byte) : Statement (.psub payload) := rfl

theorem ipsub (payload : List Byte) : Statement (.ipsub payload) := rfl

end Sys2Proof.Laws.Encoding
end

