-- ==== Sys2Proof/Laws/Port.lean ====
section
/-! SUPPORT. The framing of the command stream (spec/30_encoding.md R45, R46) and the transfer of a response. -/

namespace Sys2Proof.Machine

/-- Bytes without a last one only add to the packet in progress. -/
theorem framePayload_open (o : Byte) (p bs : List Byte) (after : List HostEvent) :
    framePayload o p (bs.map (fun b => .cmd ⟨b, false⟩) ++ after) = framePayload o (p ++ bs) after := by
  induction bs generalizing p with
  | nil => simp
  | cons b bs ih =>
    simp only [List.map_cons, List.cons_append, framePayload, Bool.false_eq_true, if_false]
    rw [ih, List.append_assoc, List.singleton_append]

/-- The transfers of the rest of a packet complete it. -/
theorem framePayload_beatsOf (o : Byte) (p bs : List Byte) (after : List HostEvent) (h : bs ≠ []) :
    framePayload o p ((beatsOf bs).map .cmd ++ after) = .packet o (p ++ bs) after := by
  induction bs generalizing p with
  | nil => exact absurd rfl h
  | cons b bs ih =>
    cases bs with
    | nil => simp [beatsOf, framePayload]
    | cons c bs =>
      simp only [beatsOf, List.map_cons, List.cons_append, framePayload, Bool.false_eq_true, if_false]
      have := ih (p ++ [b]) (by simp)
      simpa using this

/-- A packet sent on the command stream is framed as that packet. -/
theorem nextPortEvent_packetEvents (o : Byte) (p : List Byte) (after : List HostEvent) :
    nextPortEvent (packetEvents (o :: p) ++ after) = .packet o p after := by
  cases p with
  | nil => simp [packetEvents, beatsOf, nextPortEvent]
  | cons b bs =>
    simp only [packetEvents, beatsOf, List.map_cons, List.cons_append, nextPortEvent, Bool.false_eq_true, if_false]
    have := framePayload_beatsOf o [] (b :: bs) after (by simp)
    simpa using this

theorem framePayload_ne_taken (o : Byte) (p : List Byte) (evs rest : List HostEvent) :
    framePayload o p evs ≠ .quiet ∧ framePayload o p evs ≠ .taken rest ∧ framePayload o p evs ≠ .reset rest := by
  induction evs generalizing p with
  | nil => simp [framePayload]
  | cons e evs ih =>
    cases e with
    | take => exact ih p
    | rst => simp [framePayload]
    | cmd b =>
      simp only [framePayload]
      split
      · simp
      · exact ih _

/-- A reset is met only where the host asserts `rst`. -/
theorem rst_mem_of_framePayload {o : Byte} {p : List Byte} {evs rest : List HostEvent}
    (h : framePayload o p evs = .resetInPacket rest) : HostEvent.rst ∈ evs := by
  induction evs generalizing p with
  | nil => simp [framePayload] at h
  | cons e evs ih =>
    cases e with
    | take => exact List.mem_cons_of_mem _ (ih h)
    | rst => exact List.mem_cons_self
    | cmd b =>
      simp only [framePayload] at h
      split at h
      · cases h
      · exact List.mem_cons_of_mem _ (ih h)

/-- A reset is met only where the host asserts `rst`. -/
theorem rst_mem_of_nextPortEvent {evs rest : List HostEvent}
    (h : nextPortEvent evs = .reset rest ∨ nextPortEvent evs = .resetInPacket rest) : HostEvent.rst ∈ evs := by
  cases evs with
  | nil => simp [nextPortEvent] at h
  | cons e evs =>
    cases e with
    | take => simp [nextPortEvent] at h
    | rst => exact List.mem_cons_self
    | cmd b =>
      simp only [nextPortEvent] at h
      split at h
      · simp at h
      · rcases h with h | h
        · exact absurd h (framePayload_ne_taken _ _ _ _).2.2
        · exact List.mem_cons_of_mem _ (rst_mem_of_framePayload h)

theorem drain_sameInstance (s : State) : SameInstance s s.drain := ⟨rfl, rfl, rfl, rfl⟩

theorem accept_sameInstance (s : State) (rest : List HostEvent) : SameInstance s (s.accept rest) :=
  ⟨rfl, rfl, rfl, rfl⟩

theorem await_sameInstance (s : State) (o : Byte) (p : List Byte) : SameInstance s (s.await o p) :=
  ⟨rfl, rfl, rfl, rfl⟩

/-- What taking one response byte does. -/
theorem transfer_cons (s : State) {b : Beat} {bs : List Beat} (h : s.rspPending = b :: bs) :
    s.transfer =
      { s with rspPending := bs, rspSent := s.rspSent ++ [b], phase := if bs = [] then .idle else s.phase } := by
  unfold State.transfer
  rw [h]
  cases bs <;> simp

theorem transfer_nil (s : State) (h : s.rspPending = []) : s.transfer = s := by
  unfold State.transfer
  rw [h]

theorem takeOne_sameInstance (s : State) (rest : List HostEvent) : SameInstance s (s.takeOne rest) := by
  unfold State.takeOne
  cases h : s.rspPending with
  | nil => rw [transfer_nil s h]; exact ⟨rfl, rfl, rfl, rfl⟩
  | cons b bs => rw [transfer_cons s h]; exact ⟨rfl, rfl, rfl, rfl⟩

theorem beatsOf_length (bs : List Byte) : (beatsOf bs).length = bs.length := by
  induction bs with
  | nil => rfl
  | cons b bs ih => cases bs <;> simp_all [beatsOf]

theorem beatsOf_data (bs : List Byte) : (beatsOf bs).map Beat.data = bs := by
  induction bs with
  | nil => rfl
  | cons b bs ih => cases bs <;> simp_all [beatsOf]

/-- What is left of a packet after its first transfer is the packet of the bytes left. -/
theorem beatsOf_tail {bs : List Byte} {b : Beat} {l : List Beat} (h : beatsOf bs = b :: l) :
    l = beatsOf bs.tail ∧ bs.length = l.length + 1 := by
  have hl := congrArg List.length h
  rw [beatsOf_length] at hl
  cases bs with
  | nil => simp [beatsOf] at h
  | cons c bs =>
    refine ⟨?_, by simpa using hl⟩
    cases bs with
    | nil => simp only [beatsOf, List.cons.injEq] at h; exact h.2.symm
    | cons d bs => simp only [beatsOf, List.cons.injEq] at h; exact h.2.symm

end Sys2Proof.Machine
end

