-- ==== Sys2Proof/Tests/Slice0.lean ====
section
/-! SUPPORT. Tests of the model against spec/95_test_vectors.md, whose numbers are derived from the rules and not from
this model, the well-formedness smoke, and for every statement with hypotheses a witness that meets them. -/

namespace Sys2Proof.Tests

-- One theorem after another: the kernel evaluations below each reserve a large stack.
set_option Elab.async false

open Sys2Proof.Machine

/-! ### Helpers -/

/-- Sixteen bytes in wire order, written as one hex numeral: the first byte is its most significant. -/
def wire (n : Nat) : List Byte := (List.range 16).map fun i => BitVec.ofNat 8 (n / 256 ^ (15 - i))

/-- A table from its sixteen rows. -/
def tableOf (rows : List Nat) : Memory := (rows.flatMap wire).zipIdx.map fun p => (p.2, p.1)

/-- `SBOX` of key `00..0f`, spec/95_test_vectors.md section 3.2. -/
def sboxRows : List Nat :=
  [0x23f0377500fe3ac78c768a667174dec6, 0x989ea295a7ec26b812fa3c1b5fb46016, 0xc397eb414080d836c920ea0b777be982,
   0x33aa0ce3275a17b990439a478801212f, 0x19611e30e096b1d54df865e25e057245, 0x5ca37eafc085625622ee0e7ce7f78df4,
   0x87fc0a4854d2839981a9cb4bc8311852, 0xc53bc27a2e785bf9599b0255cd7f046d, 0x1f4e675738bea64accbb08b215edd73f,
   0x4cc1583225ef9cfd2cf2ff8f34b5448e, 0x643984ab9306ba791cf629d06f6e7349, 0xbfa8cf0f6ad3c4b7d1249d7d1411d92d,
   0xad9f424f5d89dbbcdde4bdae6b4668d4, 0xdadf3dca51ac1a94f5b6f1036ce553fb, 0xd62ba1e1b3a5868be65010a4f309b007,
   0x0d912a3e636970a0351d9213ce28dce8]

/-- `INVSBOX` of key `00..0f`, the same section. -/
def invsboxRows : List Nat :=
  [0x043d7adb7e4da5ef8aed622b32f05ab3, 0xeabd18fbbc8c1f366e40d61ba8f94280, 0x293e5800b9941634fdaaf2e198bf743f,
   0x436d93309cf8270284a106711ad2f38f, 0x2423c2399e4fcd3b63af876b904881c3, 0xe9d46fde647b57839278357650c44c1c,
   0x1e4156f4a04a0b82cef5b4ccdc7fadac, 0xf60c4eae0d03092c75a7732d5bbb527d, 0x25682f66a255e6603cc50ae7085e9f9b,
   0x38f1faa4d713452110673a7996ba11c1, 0xf7e21251ebe58614b16931a3d5c0cb53, 0xee468be41d9dd9b71737a689c7ca85b0,
   0x54917220b6700f076c28d36a887cfcb2, 0xabb865b5cf47e08e26bed0c6fec80ed1, 0x44e34b33c9dde85cff2e2a22158d5995,
   0x01da99ec5fd8a95d497719df6197059a]

def key00 : List Byte := wire 0x000102030405060708090a0b0c0d0e0f
def plain10 : List Byte := wire 0x101112131415161718191a1b1c1d1e1f

/-- An engine keyed with key `00..0f`, its tables transcribed from the spec. -/
def keyed : State :=
  { State.reset with
    keyValid := true, rk := roundKeys (pack key00), sbox := tableOf sboxRows, invsbox := tableOf invsboxRows }

/-- An engine that holds the instance of a key, its tables the model's own. -/
def instanceFor (k : Block) : State :=
  { State.reset with keyValid := true, rk := roundKeys k, sbox := (sboxGen k).1, invsbox := (sboxGen k).2 }

/-- A state about to meet the given host events. -/
def meeting (s : State) (evs : List HostEvent) : State := { s with hostIn := evs }

/-- The bytes a step leaves to be sent; `none` where it gives no next state. -/
def answer : Host.Outcome State Fault Refusal → Option (List Byte)
  | .next t => some (t.rspPending.map Beat.data)
  | .fault _ => none
  | .refused _ => none

theorem next_of_answer {o : Host.Outcome State Fault Refusal} {bs : List Byte} (h : answer o = some bs) :
    ∃ t, o = .next t := by
  cases o with
  | next t => exact ⟨t, rfl⟩
  | fault f => cases h
  | refused r => cases h

/-! ### Well-formedness (R46: an operand of exactly 16 bytes) -/

theorem test_wellFormed_16 : (Instr.enc plain10).wellFormed = true := by decide

theorem test_illFormed_empty : (Instr.key []).wellFormed = false := by decide

theorem test_illFormed_15 : (Instr.diff (List.replicate 15 0#8)).wellFormed = false := by decide

theorem test_illFormed_17 : (Instr.psub (plain10 ++ [0#8])).wellFormed = false := by decide

/-! ### Decoding: packets written out from R46 and R49 -/

theorem test_decode_key : decode (0x01 :: key00) = .ok (.key key00) := by decide

/-- R53's worked example. -/
theorem test_decode_enc :
    decode [0x02, 0x10, 0x11, 0x12, 0x13, 0x14, 0x15, 0x16, 0x17, 0x18, 0x19, 0x1a, 0x1b, 0x1c, 0x1d, 0x1e, 0x1f] =
      .ok (.enc plain10) := by decide

theorem test_decode_dec : decode [0x03, 0xff, 0x00] = .ok (.dec [0xff, 0x00]) := by decide

theorem test_decode_diff : decode [0b00010000, 0b10000000] = .ok (.diff [0x80]) := by decide

theorem test_decode_psub : decode [0b00010001] = .ok (.psub []) := by decide

theorem test_decode_ipsub : decode [0b00010010, 0x01] = .ok (.ipsub [0x01]) := by decide

/-- The bytes next to the legal ones (R50). -/
theorem test_decode_illegal :
    [0x00#8, 0x04#8, 0x0f#8, 0x13#8, 0x81#8, 0xff#8].all (fun o => decide (decode [o] = .error (.illegalOpcode o))) =
      true := by decide

theorem test_decode_no_byte : decode [] = .error .emptyPacket := by decide

/-- The opcode table numbers the opcode byte's bits first; the bits it gives no value are 0. -/
theorem test_table_word : decodeTableWord 8 0x12 = some (.ipsub (List.replicate 16 0#8)) := by decide

theorem test_table_word_payload : decodeTableWord 24 0xbbaa02 = some (.enc (0xaa :: 0xbb :: List.replicate 14 0#8)) := by
  decide

/-- R53's worked example in the text form, with a comment. -/
theorem test_text_enc :
    parseLine ("ENC 101112131415161718191a1b1c1d1e1f   ; comment".toList) = some (.command (.enc plain10)) := by decide

theorem test_text_raw : parseLine ("RAW 7f".toList) = some (.raw 0x7f []) := by decide

theorem test_text_reset : parseLine ("RESET".toList) = some .reset := by decide

theorem test_text_odd_digits : parseLine ("KEY 000".toList) = none := by decide

/-- "A response is written `-> <status name> [<hex>]`" (R53); program P3, line 1. -/
theorem test_text_response :
    responseText .ok (some (pack (wire 0x6e78475127310e18e8fec1d7a1b7889e))) =
      "-> OK 6e78475127310e18e8fec1d7a1b7889e".toList ∧
    responseText .noKey none = "-> NoKey".toList := by decide

/-! ### The parameters of R5 -/

theorem test_parameters :
    Config.blockBits = 128 ∧ Config.keyBits = 128 ∧ Config.blockBytes = 16 ∧ Config.nrounds = 3 ∧ Config.nrk = 8 ∧
    Config.sboxSize = 256 ∧ Config.shamt = #v[0, 1, 2, 4, 8, 16, 32, 64] ∧
    Config.seedFix = 0x9E3779B97F4A7C15#64 ∧ Config.rounds = [1#2, 2#2, 3#2] := by decide

/-! ### Packing, key schedule, generator (sections 2.1 to 2.3) -/

theorem test_pack :
    pack key00 = 0x0f0e0d0c0b0a09080706050403020100#128 ∧
    pack (wire 0x80) = 0x80000000000000000000000000000000#128 := by decide

theorem test_roundKeys :
    roundKeys (pack key00) =
      #v[0x0f0e0d0c0b0a09080706050403020100#128, 0x1e1c1a18161412100e0c0a0806040200#128,
         0x3c3834302c2824201c1814100c080400#128, 0xf0e0d0c0b0a090807060504030201000#128,
         0x0e0d0c0b0a0908070605040302010000#128, 0x0d0c0b0a090807060504030201000000#128,
         0x0b0a0908070605040302010000000000#128, 0x07060504030201000000000000000000#128] := by decide

/-- Section 2.3, the all-zero key: seed, and the first two draws. -/
theorem test_generator :
    prngSeed 0#128 = 0x9e3779b97f4a7c15#64 ∧ prngStep 0x9e3779b97f4a7c15#64 = 0xdc1b77ae0bf34dad#64 ∧
    prngDraw 0xdc1b77ae0bf34dad#64 = 0xdc#8 ∧ prngStep 0xdc1b77ae0bf34dad#64 = 0x64f0eeb9026e6076#64 := by decide

/-- Section 2.3, key `00..0f`: the generator and the table after t = 2, on the cells the three swaps draw and two
more. -/
theorem test_three_swaps :
    swapLoop xs64 3 0x0808080808080808#64
        [(0x00, 0x00), (0x16, 0x16), (0x1a, 0x1a), (0x3f, 0x3f), (0x62, 0x62), (0xa8, 0xa8), (0xaf, 0xaf), (0xff, 0xff)] =
      (0x16b16679bbcffe7a#64,
        [(0x00, 0x00), (0x16, 0xaf), (0x1a, 0x62), (0x3f, 0xa8), (0x62, 0x1a), (0xa8, 0x3f), (0xaf, 0x16), (0xff, 0xff)]) := by
  decide +kernel

/-- Section 3.2: `SBOX[00] = 23` and `SBOX[23] = 41` make `INVSBOX[23] = 00` and `INVSBOX[41] = 23`. -/
theorem test_sbinv : sbInv [(0x00, 0x23), (0x23, 0x41)] [] = [(0x23, 0x00), (0x41, 0x23)] := by decide +kernel

/-! ### Layers (sections 2.4 and 2.5) -/

theorem test_swapG :
    ([Gran.g1, .g2, .g4, .g8, .g16, .g32, .g64].map fun g => unpack (swapG g (pack plain10))) =
      [wire 0x20222123282a292b242625272c2e2d2f, wire 0x4044484c4145494d42464a4e43474b4f,
       wire 0x01112131415161718191a1b1c1d1e1f1, wire 0x111013121514171619181b1a1d1c1f1e,
       wire 0x12131011161714151a1b18191e1f1c1d, wire 0x14151617101112131c1d1e1f18191a1b,
       wire 0x18191a1b1c1d1e1f1011121314151617] := by decide +kernel

theorem test_diff_bit127 : diff (pack (wire 0x80)) = 0x68808000800000008000000000000000#128 := by decide

/-! ### The commands (programs P1 to P3); each at most two -/

/-- P2, line 5: `OK` without data; the round keys of section 2.2. -/
theorem test_key_ok : answer (exec (.key key00) State.reset) = some [0x00] := by decide +kernel

/-- P2, line 3. -/
theorem test_key_17 : answer (exec (.key (key00 ++ [0x10])) keyed) = some [0x01] := by decide +kernel

/-- P1, line 2. -/
theorem test_enc : answer (exec (.enc plain10) keyed) = some (0x00 :: wire 0x29e41b8ef510d69f56ada0f6e9455783) := by
  decide +kernel

/-- P2, lines 1 and 4: the length is checked before the key. -/
theorem test_enc_errors :
    answer (exec (.enc plain10) State.reset) = some [0x03] ∧
    answer (exec (.enc (plain10.take 15)) State.reset) = some [0x02] := by decide +kernel

/-- P1, line 3. -/
theorem test_dec : answer (exec (.dec (wire 0x29e41b8ef510d69f56ada0f6e9455783)) keyed) = some (0x00 :: plain10) := by
  decide +kernel

theorem test_dec_errors :
    answer (exec (.dec plain10) State.reset) = some [0x03] ∧ answer (exec (.dec []) State.reset) = some [0x02] := by
  decide +kernel

/-- P3, line 1. -/
theorem test_diff : answer (exec (.diff plain10) State.reset) = some (0x00 :: wire 0x6e78475127310e18e8fec1d7a1b7889e) := by
  decide +kernel

theorem test_diff_15 : answer (exec (.diff (plain10.take 15)) State.reset) = some [0x02] := by decide +kernel

/-- P3, line 5. -/
theorem test_psub : answer (exec (.psub plain10) keyed) = some (0x00 :: wire 0xfa269598b43cb8a79e601b12eca2165f) := by
  decide +kernel

theorem test_psub_unkeyed : answer (exec (.psub plain10) State.reset) = some [0x03] := by decide +kernel

/-- P3, line 7. -/
theorem test_ipsub : answer (exec (.ipsub plain10) keyed) = some (0x00 :: wire 0xfb6ef91836a8bd1f1bea8cd680bc4042) := by
  decide +kernel

theorem test_ipsub_unkeyed : answer (exec (.ipsub plain10) State.reset) = some [0x03] := by decide +kernel

/-- Section 2.7: an illegal opcode, its length not looked at. -/
theorem test_illegal :
    answer (step (meeting State.reset (packetEvents (0x7f :: plain10)))) = some [0x04] ∧
    answer (step (meeting State.reset (packetEvents [0x00]))) = some [0x04] := by decide +kernel

/-- P5, line 2: what a `RESET` line makes the host do reaches the engine as takes and one reset event. -/
theorem test_reset_line : asmEvents .reset = List.replicate 17 .take ++ [.rst] := by decide

/-- The word the host places is run by the very next step. -/
theorem test_fetch_word : answer (step (State.reset.withFetchWord 8 0x10)) = some (List.replicate 17 0x00) := by
  decide +kernel

/-! ### Witnesses: for each statement with hypotheses a state and operands that meet all of them, for each of its
clauses -/

/-- The fresh identity table holds every index at its own cell. -/
theorem identity_read (b : Byte) : memRead (sbInit []) b = some b := by
  rw [sbInit_eq, memRead_fill, if_pos (mem_byteValues b)]

theorem identity_full : tableFull (sbInit []) = true := (tableFull_iff _).mpr fun b => ⟨b, identity_read b⟩

theorem keyed_full : tableFull keyed.sbox = true ∧ tableFull keyed.invsbox = true := by decide +kernel

/-- `instanceFor k` holds the instance of `k`, for any key. -/
theorem holds_instanceFor (k : Block) : HoldsInstance (instanceFor k) k := ⟨rfl, fun _ => rfl, fun _ => rfl⟩

theorem inv_instanceFor (k : Block) : InstanceInv (instanceFor k) := by
  refine ⟨?_, ?_, fun _ => ⟨k, holds_instanceFor k⟩⟩
  · change (sboxGen k).1.wf = true
    rw [sboxGen_eq, sboxGenWith_fst]
    exact wf_swapLoop _ _ _ (wf_sbInit rfl)
  · change (sboxGen k).2.wf = true
    rw [sboxGen_eq, sboxGenWith_snd]
    exact wf_sbInv _ rfl

theorem inv_reset (evs : List HostEvent) : InstanceInv (meeting State.reset evs) := ⟨rfl, rfl, fun h => Bool.noConfusion h⟩

theorem witness_PacketRoundTrip : decode [0x12] = .ok (.ipsub []) := rfl

theorem witness_StepRunsDecodedCommand :
    nextPortEvent (meeting State.reset (packetEvents (0x01 :: key00) ++ [.rst])).hostIn =
      .packet 0x01 key00 [.rst] ∧ decode (0x01 :: key00) = .ok (.key key00) := by decide

/-- The shortest packet of an illegal opcode, and a long one, at the opcodes next to the legal ones. -/
theorem witness_IllegalOpcodeAnswered :
    (0x00#8 ∉ [0x01#8, 0x02#8, 0x03#8, 0x10#8, 0x11#8, 0x12#8] ∧
      (meeting State.reset (packetEvents [0x00])).hostIn = packetEvents [0x00] ++ []) ∧
    0x13#8 ∉ [0x01#8, 0x02#8, 0x03#8, 0x10#8, 0x11#8, 0x12#8] ∧
      (meeting keyed (packetEvents (0x13 :: key00 ++ key00))).hostIn = packetEvents (0x13 :: key00 ++ key00) ++ [] := by
  decide

/-- Unkeyed and keyed. -/
theorem witness_StatusOfFirstFailingCheck :
    (InstanceInv (meeting State.reset (packetEvents [0x02])) ∧
      (meeting State.reset (packetEvents [0x02])).hostIn = packetEvents [0x02] ++ []) ∧
    InstanceInv (meeting (instanceFor 0#128) (packetEvents (0x02 :: key00))) ∧
      (meeting (instanceFor 0#128) (packetEvents (0x02 :: key00))).hostIn = packetEvents (0x02 :: key00) ++ [] :=
  ⟨⟨inv_reset _, (List.append_nil _).symm⟩, inv_instanceFor 0#128, (List.append_nil _).symm⟩

/-- One packet for each of the four errors, each on the boundary of its check. -/
theorem witness_ErrorsChangeNothing :
    (meeting State.reset (packetEvents [0x04])).hostIn = packetEvents [0x04] ++ [] ∧
    expectedStatus 0x04 0 false = .illegalCommand ∧ expectedStatus 0x01 17 true = .invalidKeyLength ∧
    expectedStatus 0x10 15 false = .invalidBlockLength ∧ expectedStatus 0x12 16 false = .noKey := by decide

/-- A response of 17 bytes and one of 1 byte. -/
theorem witness_ResponseShape :
    (InstanceInv (meeting State.reset (packetEvents (0x10 :: key00))) ∧
      (meeting State.reset (packetEvents (0x10 :: key00))).hostIn = packetEvents (0x10 :: key00) ++ [] ∧
      expectedStatus 0x10 key00.length false = .ok) ∧
    expectedStatus 0x01 key00.length false = .ok :=
  ⟨⟨inv_reset _, (List.append_nil _).symm, by decide⟩, by decide⟩

/-- More than one byte pending, the last one, and none. -/
theorem witness_TakeTransfersOneByte :
    ({ State.reset with hostIn := [.take], rspPending := [⟨0x00, false⟩, ⟨0xff, true⟩] } : State).rspPending =
      ⟨0x00, false⟩ :: [⟨0xff, true⟩] ∧
    ({ State.reset with hostIn := [.take], rspPending := [⟨0x04, true⟩] } : State).rspPending = ⟨0x04, true⟩ :: [] ∧
    (meeting State.reset [.take]).hostIn = .take :: [] ∧ (meeting State.reset [.take]).rspPending = [] := by decide

/-- The opcode byte alone, and a payload longer than an operand. -/
theorem witness_StalledPacketWaits :
    (meeting State.reset [.cmd ⟨0x01, false⟩]).hostIn =
      .cmd ⟨0x01, false⟩ :: ([] : List Byte).map (fun b => .cmd ⟨b, false⟩) ∧
    (meeting keyed (.cmd ⟨0x7f, false⟩ :: (key00 ++ [0x10]).map (fun b => .cmd ⟨b, false⟩))).hostIn =
      .cmd ⟨0x7f, false⟩ :: (key00 ++ [0x10]).map (fun b => .cmd ⟨b, false⟩) ∧
    (0 : Lane).val < (key00 ++ [0x10]).length := by decide

/-- Payloads of 16 and of 17 bytes. -/
theorem witness_PacketRegisters : key00.length = 16 ∧ 16 < (key00 ++ [0x10]).length := by decide

theorem witness_PackUnpackInverse : key00.length = 16 ∧ 7 < 8 := by decide

theorem witness_ResetEventAtAnyTime :
    (meeting { keyed with rspPending := [⟨0x03, true⟩] } [.rst]).hostIn = .rst :: [] := rfl

theorem witness_ResetAbandonsPacket :
    (meeting keyed [.cmd ⟨0x02, false⟩, .cmd ⟨0x10, false⟩, .rst]).hostIn =
      .cmd ⟨0x02, false⟩ :: [0x10#8].map (fun b => .cmd ⟨b, false⟩) ++ .rst :: [] := rfl

theorem witness_RoundKeyBits : 0 < 128 ∧ 127 < 128 := by decide

theorem witness_KeyScheduleWritesAllRoundKeys : 0 < (7 : Fin 8).val := by decide

/-- A discarded position of `RK[7]`, a shifted register, and a difference in the top 4 bits only. -/
theorem witness_KeyScheduleLinear :
    63 < Config.shamt[7] ∧ (1 : Fin 8) ≠ 0 ∧ ∀ p < 124, (0xf#128 <<< 124).getLsbD p = false := by decide

/-- Equal halves, different halves, two keys with the same fold. -/
theorem witness_SeedIsTheFold :
    (0#128).extractLsb' 0 64 = (0#128).extractLsb' 64 64 ∧ (1#128).extractLsb' 0 64 ≠ (1#128).extractLsb' 64 64 ∧
    (0#128).extractLsb' 0 64 ^^^ (0#128).extractLsb' 64 64 =
      (BitVec.allOnes 128).extractLsb' 0 64 ^^^ (BitVec.allOnes 128).extractLsb' 64 64 := by decide

theorem witness_GeneratorStepBijective : (0x8000000000000000#64) ≠ 0#64 := by decide

/-- Two different cells, and one cell twice. -/
theorem witness_SwapIteration :
    memRead (sbInit []) 0x00 = some 0x00#8 ∧ memRead (sbInit []) 0xff = some 0xff#8 := ⟨identity_read _, identity_read _⟩

theorem witness_PSubLanes : tableFull (sbInit []) = true := identity_full

theorem witness_IPSubLanes : tableFull keyed.invsbox = true := keyed_full.2

theorem witness_LayersInverse : InverseTables (sbInit []) (sbInit []) :=
  ⟨fun b => ⟨b, identity_read b, identity_read b⟩, fun b => ⟨b, identity_read b, identity_read b⟩⟩

theorem witness_MasksPartition : 127 < 128 := by decide

theorem witness_GroupSwapBits : 63 < 128 := by decide

theorem witness_DiffBits : 64 < 128 := by decide

theorem witness_KeyCommand : key00.length = 16 ∧ (key00.take 15).length ≠ 16 := by decide

/-- Each clause: a wrong length, no key, keyed with full tables. -/
theorem witness_EncCommand :
    ([] : List Byte).length ≠ 16 ∧ (plain10.length = 16 ∧ State.reset.keyValid = false) ∧
    plain10.length = 16 ∧ keyed.keyValid = true ∧ tableFull keyed.sbox = true :=
  ⟨by decide, ⟨by decide, rfl⟩, by decide, rfl, keyed_full.1⟩

theorem witness_DecCommand :
    (plain10 ++ [0x00]).length ≠ 16 ∧ (plain10.length = 16 ∧ State.reset.keyValid = false) ∧
    plain10.length = 16 ∧ keyed.keyValid = true ∧ tableFull keyed.invsbox = true :=
  ⟨by decide, ⟨by decide, rfl⟩, by decide, rfl, keyed_full.2⟩

theorem witness_DiffCommand : plain10.length = 16 ∧ (plain10.take 15).length ≠ 16 := by decide

theorem witness_PsubCommand :
    (plain10.take 15).length ≠ 16 ∧ (plain10.length = 16 ∧ State.reset.keyValid = false) ∧
    plain10.length = 16 ∧ keyed.keyValid = true ∧ tableFull keyed.sbox = true :=
  ⟨by decide, ⟨by decide, rfl⟩, by decide, rfl, keyed_full.1⟩

theorem witness_IpsubCommand :
    (plain10 ++ [0xff]).length ≠ 16 ∧ (plain10.length = 16 ∧ State.reset.keyValid = false) ∧
    (plain10.length = 16 ∧ keyed.keyValid = true ∧ tableFull keyed.invsbox = true) ∧
    ({ keyed with sbox := sbInit [], invsbox := sbInit [] } : State).keyValid = true ∧
    InverseTables ({ keyed with sbox := sbInit [], invsbox := sbInit [] } : State).sbox
      ({ keyed with sbox := sbInit [], invsbox := sbInit [] } : State).invsbox :=
  ⟨by decide, ⟨by decide, rfl⟩, ⟨by decide, rfl, keyed_full.2⟩, rfl, witness_LayersInverse⟩

theorem witness_BlockCommandFrame :
    isBlockCommand (.psub plain10) = true ∧ ∃ t, exec (.psub plain10) keyed = .next t :=
  ⟨rfl, next_of_answer test_psub⟩

theorem witness_BlockCommandsIndependent :
    isBlockCommand (.diff plain10) = true ∧ isBlockCommand (.enc plain10) = true ∧
    (∃ t, exec (.diff plain10) State.reset = .next t) ∧ ∃ u, exec (.enc plain10) State.reset = .next u :=
  ⟨rfl, rfl, next_of_answer test_diff, next_of_answer test_enc_errors.1⟩

theorem witness_KeyDeterminesInstance : (wire 0).length = 16 := by decide

/-- The upper round keys of `keyed` replaced by 0. -/
theorem witness_UpperRoundKeysUnread :
    (∀ i : Fin 8, i.val < 4 →
      (#v[keyed.rk[0], keyed.rk[1], keyed.rk[2], keyed.rk[3], 0, 0, 0, 0] : Vector Block 8)[i] = keyed.rk[i]) ∧
    (∃ t, exec (.enc plain10) keyed = .next t) ∧
    ∃ t, exec (.dec (wire 0x29e41b8ef510d69f56ada0f6e9455783)) keyed = .next t :=
  ⟨by decide +kernel, next_of_answer test_enc, next_of_answer test_dec⟩

theorem witness_TablesReached :
    (∃ t, exec (.enc plain10) keyed = .next t) ∧ (∃ t, exec (.psub plain10) keyed = .next t) ∧
    (∃ t, exec (.dec (wire 0x29e41b8ef510d69f56ada0f6e9455783)) keyed = .next t) ∧
    (∃ t, exec (.ipsub plain10) keyed = .next t) ∧ ∃ t, exec (.diff plain10) State.reset = .next t :=
  ⟨next_of_answer test_enc, next_of_answer test_psub, next_of_answer test_dec, next_of_answer test_ipsub,
    next_of_answer test_diff⟩

/-- Two engines of one key that differ elsewhere. -/
theorem witness_EncryptDecryptRoundTrip :
    (instanceFor 0#128).keyValid = true ∧ HoldsInstance (instanceFor 0#128) 0#128 ∧
    ({ instanceFor 0#128 with st := 1#128 } : State).keyValid = true ∧
    HoldsInstance { instanceFor 0#128 with st := 1#128 } 0#128 ∧ plain10.length = 16 :=
  ⟨rfl, holds_instanceFor _, rfl, holds_instanceFor _, by decide⟩

theorem witness_InstanceInvariantKept :
    InstanceInv (meeting (instanceFor 0#128) [.rst]) ∧ ∃ t, step (meeting (instanceFor 0#128) [.rst]) = .next t :=
  ⟨inv_instanceFor 0#128, _, rfl⟩

/-- At rest, and with the last byte of a response pending. -/
theorem witness_PortInvariantKept :
    (PortInv State.reset ∧ ∃ t, step State.reset = .next t) ∧
    PortInv { State.reset with hostIn := [.take], phase := .err, rspPending := beatsOf [0x03] } ∧
    ∃ t, step { State.reset with hostIn := [.take], phase := .err, rspPending := beatsOf [0x03] } = .next t :=
  ⟨⟨Or.inl ⟨rfl, Or.inl rfl⟩, _, rfl⟩, Or.inr ⟨[0x03], rfl, by decide, by decide, Or.inr rfl⟩, _, rfl⟩

/-- A quiet step, a reset event, a successful `KEY`. -/
theorem witness_OnlyKeyAndResetChangeInstance :
    (∃ t, step State.reset = .next t) ∧ (∃ t, step (meeting keyed [.rst]) = .next t) ∧
    ∃ t, step (meeting State.reset (packetEvents (0x01 :: key00))) = .next t :=
  ⟨⟨_, rfl⟩, ⟨_, rfl⟩, next_of_answer (bs := [0x00]) (by decide +kernel)⟩

theorem witness_EveryStepCompletes : InstanceInv (meeting (instanceFor 0#128) (packetEvents (0x12 :: key00))) :=
  inv_instanceFor 0#128

/-- Unkeyed engines that differ in every unspecified value a table or a scratch register can hold; keyed engines that
differ in a scratch register. -/
theorem witness_UnspecifiedValuesUnobservable :
    VisiblyEqual State.reset { State.reset with st := 1#128, sbox := [(0, 0x55)], rk := roundKeys 1#128 } ∧
    VisiblyEqual (instanceFor 0#128) { instanceFor 0#128 with prng := 1#64 } :=
  ⟨⟨rfl, fun h => Bool.noConfusion h, rfl, rfl, rfl, rfl⟩, rfl, fun _ => ⟨rfl, fun _ => rfl, fun _ => rfl⟩, rfl, rfl, rfl, rfl⟩

theorem witness_OneResponsePerCommand :
    nextPortEvent (meeting State.reset (packetEvents [0x7f])).hostIn = .packet 0x7f [] [] ∧
    ∃ t, step (meeting State.reset (packetEvents [0x7f])) = .next t :=
  ⟨rfl, _, rfl⟩

end Sys2Proof.Tests
end

section
/-! Packing and unpacking a block (spec/00_scope.md R6), and the step that meets a packet which decodes to a command
(R9; spec/30_encoding.md R45). -/

namespace Sys2Proof

open Sys2Proof.Machine

/-- The `i`-th byte on the wire is `byte(X, i)` of the packed block (R6). -/
theorem getElem?_eq_some_byteOf_pack {bytes : List Byte} (h : bytes.length = 16) (i : Lane) :
    bytes[i.val]? = some (byteOf (pack bytes) i) := by
  have hi : i.val < bytes.length := i.isLt.trans_eq h.symm
  rw [byteOf_pack, List.getD_eq_getElem _ _ hi, List.getElem?_eq_getElem hi]

/-- Bit `q` of byte `i` is bit `8i + q` of the block (R6). -/
theorem byteOf_getLsbD_of_lt (x : Block) (i : Lane) {q : Nat} (hq : q < 8) :
    (byteOf x i).getLsbD q = x.getLsbD (8 * i.val + q) := by
  rw [byteOf_getLsbD, decide_eq_true hq, Bool.true_and]

/-- Settles O11: the laws of `pack` and `unpack`, byte by byte and bit by bit. -/
theorem packUnpackInverse : Obligations.PackUnpackInverse :=
  ⟨fun _ h => unpack_pack h, fun x => ⟨pack_unpack x, unpack_length x⟩,
    fun _ i h => getElem?_eq_some_byteOf_pack h i, fun x i _ hq => byteOf_getLsbD_of_lt x i hq⟩

/-- The arm of `step` for a whole packet whose bytes decode (R9, R45). -/
theorem step_of_decode_ok {s : State} {opcode : Byte} {payload : List Byte} {rest : List HostEvent} {i : Instr}
    (hp : nextPortEvent s.hostIn = .packet opcode payload rest) (hd : decode (opcode :: payload) = .ok i) :
    step s = exec i (s.accept rest) := by
  simp only [step, hp, hd]

/-- Settles O3: the step's arm for a decoded packet, then what accepting a packet leaves in each field. -/
theorem stepRunsDecodedCommand : Obligations.StepRunsDecodedCommand := fun s _ _ rest _ hp hd =>
  ⟨step_of_decode_ok hp hd, s.accept_hostIn rest, s.accept_rspPending rest, s.accept_rspSent rest,
    accept_sameInstance s rest⟩

end Sys2Proof
end

section
/-! What a block command answers, as a function of its operand and the state (spec/46_commands.md R115, R117 to R121),
and its frame. -/

namespace Sys2Proof

open Sys2Proof.Machine

/-- Every command is `KEY` or one of the five block commands (R49). -/
theorem eq_key_or_isBlockCommand (i : Instr) : (∃ p, i = .key p) ∨ isBlockCommand i = true := by
  cases i with
  | key p => exact Or.inl ⟨p, rfl⟩
  | enc | dec | diff | psub | ipsub => exact Or.inr rfl

/-- The status and the block a block command answers with; absent where it reads a cell that holds no value. -/
def blockAnswer (i : Instr) (s : State) : Option (Status × Option Block) :=
  if i.payload.length ≠ 16 then some (.invalidBlockLength, none)
  else if s.lacksKey (needsKey i) then some (.noKey, none)
  else (blockResult i s).map fun y => (.ok, some y)

/-- The fault of a block command that reads a cell that holds no value: it names the table the command uses (R31). -/
def blockFault : Instr → Fault
  | .dec _ => .unwrittenCell .invsbox
  | .ipsub _ => .unwrittenCell .invsbox
  | _ => .unwrittenCell .sbox

theorem lacksKey_eq_false_iff (s : State) (nk : Bool) : s.lacksKey nk = false ↔ (nk = true → s.keyValid = true) := by
  cases nk <;> simp [State.lacksKey]

/-- A block command gives the answer `blockAnswer` says, or faults where there is none. -/
theorem exec_block_answers {i : Instr} (hi : isBlockCommand i = true) (s : State) :
    (∃ a t, blockAnswer i s = some a ∧ exec i s = .next t ∧ Answered s t a.1 a.2) ∨
    (blockAnswer i s = none ∧ exec i s = .fault (blockFault i)) := by
  rcases exec_block_cases i hi s with
    ⟨hlen, t, ht, ha⟩ | ⟨hlen, hneed, hkey, t, ht, ha⟩ | ⟨hlen, hkey, ⟨y, t, hy, ht, ha⟩ | ⟨hnone, f, hf, rfl⟩⟩
  · exact Or.inl ⟨(.invalidBlockLength, none), t, if_pos hlen, ht, ha⟩
  · exact Or.inl ⟨(.noKey, none), t, by simp [blockAnswer, hlen, State.lacksKey, hneed, hkey], ht, ha⟩
  · exact Or.inl ⟨(.ok, some y), t, by simp [blockAnswer, hlen, (lacksKey_eq_false_iff s _).mpr hkey, hy], ht, ha⟩
  · refine Or.inr ⟨by simp [blockAnswer, hlen, (lacksKey_eq_false_iff s _).mpr hkey, hnone], hf.trans ?_⟩
    cases i <;> rfl

/-- A block command that gives a next state has answered and kept the architectural state. -/
theorem answered_of_exec_block {i : Instr} (hi : isBlockCommand i = true) {s t : State} (h : exec i s = .next t) :
    ∃ status data, Answered s t status data := by
  rcases exec_block_answers hi s with ⟨a, u, -, hu, ha⟩ | ⟨-, hf⟩
  · obtain rfl : u = t := Host.Outcome.next.inj (hu.symm.trans h)
    exact ⟨a.1, a.2, ha⟩
  · cases hf.symm.trans h

/-- Settles O39: a block command that completes has answered, and an answer keeps the architectural state. -/
theorem blockCommandFrame : Obligations.BlockCommandFrame := fun _ _ _ hi h => by
  obtain ⟨_, _, ⟨-, hin, hsent⟩, ⟨hkey, hrk, hsbox, hinv⟩, -⟩ := answered_of_exec_block hi h
  exact ⟨⟨hkey, hrk, hsbox, hinv⟩, fun b => by rw [hsbox], fun b => by rw [hinv], hin, hsent⟩

/-- Where a block command has the same answer in two states, it gives that answer in both or faults alike in both. -/
theorem exec_block_congr {i : Instr} (hi : isBlockCommand i = true) {s t : State}
    (h : blockAnswer i s = blockAnswer i t) :
    (∃ (a : Status × Option Block) (s' t' : State), exec i s = .next s' ∧ exec i t = .next t' ∧
      Answered s s' a.1 a.2 ∧ Answered t t' a.1 a.2) ∨
    (∃ f, exec i s = .fault f ∧ exec i t = .fault f) := by
  rcases exec_block_answers hi s with ⟨a, s', ha, hs, has⟩ | ⟨ha, hs⟩ <;>
    rcases exec_block_answers hi t with ⟨b, t', hb, ht, hbt⟩ | ⟨hb, ht⟩
  · obtain rfl : a = b := Option.some.inj (ha.symm.trans (h.trans hb))
    exact Or.inl ⟨a, s', t', hs, ht, has, hbt⟩
  · cases ha.symm.trans (h.trans hb)
  · cases ha.symm.trans (h.trans hb)
  · exact Or.inr ⟨_, hs, ht⟩

/-- Two states that give a block command the same answer: what it sends in the one it sends in the other. -/
theorem rspPending_of_blockAnswer_eq {i : Instr} (hi : isBlockCommand i = true) {s u t : State}
    (h : blockAnswer i s = blockAnswer i u) (ht : exec i s = .next t) :
    ∃ v, exec i u = .next v ∧ v.rspPending = t.rspPending := by
  rcases exec_block_congr hi h with ⟨_, t', v, hs, hv, ⟨⟨hpend, -, -⟩, -, -⟩, ⟨⟨hpend', -, -⟩, -, -⟩⟩ | ⟨_, hf, -⟩
  · obtain rfl : t' = t := Host.Outcome.next.inj (hs.symm.trans ht)
    exact ⟨v, hv, hpend'.trans hpend.symm⟩
  · cases hf.symm.trans ht

/-- The answer depends on the flag and, where the checks pass, on the block computed. -/
theorem blockAnswer_congr {i : Instr} {s t : State} (hflag : s.keyValid = t.keyValid)
    (hresult : (needsKey i = true → s.keyValid = true) → blockResult i s = blockResult i t) :
    blockAnswer i s = blockAnswer i t := by
  have hlacks : s.lacksKey (needsKey i) = t.lacksKey (needsKey i) := by simp only [State.lacksKey, hflag]
  unfold blockAnswer
  rw [← hlacks]
  cases hk : s.lacksKey (needsKey i) with
  | true => rfl
  | false => rw [hresult ((lacksKey_eq_false_iff s _).mp hk)]

/-- `ARK` reads only `RK[0..3]` (R63). -/
theorem readRk_eq_of_lower {s : State} {rk' : Vector Block 8} (h : ∀ i : Fin 8, i.val < 4 → rk'[i] = s.rk[i]) :
    State.readRk { s with rk := rk' } = s.readRk :=
  funext fun r => h ⟨r.toNat, Nat.lt_of_lt_of_le r.isLt (by decide)⟩ r.isLt

/-- Settles O42: `ENC` and `DEC` read round keys through `readRk` only. -/
theorem upperRoundKeysUnread : Obligations.UpperRoundKeysUnread := fun p s rk' h => by
  have henc : blockAnswer (.enc p) s = blockAnswer (.enc p) { s with rk := rk' } :=
    blockAnswer_congr rfl fun _ => by simp only [blockResult, readRk_eq_of_lower h]
  have hdec : blockAnswer (.dec p) s = blockAnswer (.dec p) { s with rk := rk' } :=
    blockAnswer_congr rfl fun _ => by simp only [blockResult, readRk_eq_of_lower h]
  exact ⟨fun _ => rspPending_of_blockAnswer_eq rfl henc, fun _ => rspPending_of_blockAnswer_eq rfl hdec⟩

end Sys2Proof
end

section
/-! The arms of a step (spec/30_encoding.md R45), and what a step does to the architectural state (spec/10_state.md
R20 to R22). -/

namespace Sys2Proof

open Sys2Proof.Machine

/-- A decoded packet is the packet of its command, byte for byte (R46). -/
theorem encode_of_decode {o : Byte} {p : List Byte} {i : Instr} (h : decode (o :: p) = .ok i) : encode i = o :: p := by
  simp only [decode, decodeCommand] at h
  split_ifs at h with hkey henc hdec hdiff hpsub hipsub <;> cases h
  · rw [hkey]; rfl
  · rw [henc]; rfl
  · rw [hdec]; rfl
  · rw [hdiff]; rfl
  · rw [hpsub]; rfl
  · rw [hipsub]; rfl

/-! ### The arms of a step -/

theorem step_of_quiet {s : State} (hp : nextPortEvent s.hostIn = .quiet) : step s = .next s := by
  simp only [step, hp]

theorem step_of_taken {s : State} {rest : List HostEvent} (hp : nextPortEvent s.hostIn = .taken rest) :
    step s = .next (s.takeOne rest) := by
  simp only [step, hp]

theorem step_of_reset {s : State} {rest : List HostEvent} (hp : nextPortEvent s.hostIn = .reset rest) :
    step s = .next (s.resetEvent rest) := by
  simp only [step, hp]

theorem step_of_resetInPacket {s : State} {rest : List HostEvent}
    (hp : nextPortEvent s.hostIn = .resetInPacket rest) : step s = .next (s.drain.resetEvent rest) := by
  simp only [step, hp]

theorem step_of_waiting {s : State} {opcode : Byte} {payload : List Byte}
    (hp : nextPortEvent s.hostIn = .waiting opcode payload) : step s = .next (s.await opcode payload) := by
  simp only [step, hp]

/-- The arm of `step` for a whole packet whose opcode is none of R49. -/
theorem step_of_decode_error {s : State} {opcode : Byte} {payload : List Byte} {rest : List HostEvent}
    {e : DecodeError} (hp : nextPortEvent s.hostIn = .packet opcode payload rest)
    (hd : decode (opcode :: payload) = .error e) : step s = .next (illegalCommand opcode payload (s.accept rest)) := by
  simp only [step, hp, hd]

/-! ### The architectural state -/

/-- `IllegalCommand` is an error response like the others (R122, R136). -/
theorem illegalCommand_answered (o : Byte) (p : List Byte) (s : State) :
    Answered s (illegalCommand o p s) .illegalCommand none :=
  raise_answered s o p (by decide)

/-- What a successful `KEY` with payload `p` makes of the architectural state of `s`: keyed with the tables and round
keys of `p`, and tables in canonical form where they were (R116). -/
def Rekeyed (p : List Byte) (s t : State) : Prop :=
  p.length = 16 ∧ t.keyValid = true ∧ HoldsInstance t (pack p) ∧
    (s.sbox.wf = true → t.sbox.wf = true) ∧ (s.invsbox.wf = true → t.invsbox.wf = true)

/-- What a reset event leaves of the architectural state: no key and no table cell (R22, log entry 5). -/
def Unkeyed (t : State) : Prop := t.keyValid = false ∧ t.sbox = [] ∧ t.invsbox = []

theorem resetEvent_unkeyed (s : State) (rest : List HostEvent) : Unkeyed (s.resetEvent rest) := ⟨rfl, rfl, rfl⟩

/-- A command keeps the architectural state, or is a successful `KEY` (R21). -/
theorem sameInstance_or_rekeyed_of_exec {i : Instr} {s t : State} (h : exec i s = .next t) :
    SameInstance s t ∨ ∃ p, i = .key p ∧ Rekeyed p s t := by
  rcases eq_key_or_isBlockCommand i with ⟨p, rfl⟩ | hi
  · rcases exec_key_cases p s with ⟨-, u, hu, -, hsame, -⟩ | ⟨hlen, u, hu, -, -, hkey, hholds, hwf, hwf'⟩ <;>
      obtain rfl : u = t := Host.Outcome.next.inj (hu.symm.trans h)
    · exact Or.inl hsame
    · exact Or.inr ⟨p, rfl, hlen, hkey, hholds, hwf, hwf'⟩
  · obtain ⟨_, _, -, hsame, -⟩ := answered_of_exec_block hi h
    exact Or.inl hsame

/-- Everything a step can do to the architectural state: nothing, a reset event, or a successful `KEY` (R21). -/
theorem step_architectural_cases {s t : State} (h : step s = .next t) :
    SameInstance s t ∨
    (Unkeyed t ∧ ∃ rest, nextPortEvent s.hostIn = .reset rest ∨ nextPortEvent s.hostIn = .resetInPacket rest) ∨
    (∃ p rest, nextPortEvent s.hostIn = .packet opcodeKey p rest ∧ Rekeyed p s t) := by
  cases hp : nextPortEvent s.hostIn with
  | quiet => cases (step_of_quiet hp).symm.trans h; exact Or.inl ⟨rfl, rfl, rfl, rfl⟩
  | taken rest => cases (step_of_taken hp).symm.trans h; exact Or.inl (takeOne_sameInstance s rest)
  | reset rest =>
    cases (step_of_reset hp).symm.trans h
    exact Or.inr (Or.inl ⟨resetEvent_unkeyed s rest, rest, Or.inl rfl⟩)
  | resetInPacket rest =>
    cases (step_of_resetInPacket hp).symm.trans h
    exact Or.inr (Or.inl ⟨resetEvent_unkeyed s.drain rest, rest, Or.inr rfl⟩)
  | waiting o p => cases (step_of_waiting hp).symm.trans h; exact Or.inl (await_sameInstance s o p)
  | packet o p rest =>
    cases hd : decode (o :: p) with
    | error e =>
      cases (step_of_decode_error hp hd).symm.trans h
      obtain ⟨-, hsame, -⟩ := illegalCommand_answered o p (s.accept rest)
      exact Or.inl hsame
    | ok i =>
      rw [step_of_decode_ok hp hd] at h
      rcases sameInstance_or_rekeyed_of_exec h with hsame | ⟨q, rfl, hkeyed⟩
      · exact Or.inl hsame
      · obtain ⟨rfl, rfl⟩ : opcodeKey = o ∧ q = p := List.cons.inj (encode_of_decode hd)
        exact Or.inr (Or.inr ⟨q, rest, rfl, hkeyed⟩)

/-- Settles O48: the three cases of what a step does to the architectural state. -/
theorem onlyKeyAndResetChangeInstance : Obligations.OnlyKeyAndResetChangeInstance := fun s t h => by
  rcases step_architectural_cases h with hsame | ⟨⟨hkey, -, -⟩, rest, hmet⟩ | ⟨p, rest, hmet, hlen, hkey, hholds, -, -⟩
  · exact Or.inl hsame
  · exact Or.inr (Or.inl ⟨hkey, rst_mem_of_nextPortEvent hmet, rest, hmet⟩)
  · exact Or.inr (Or.inr ⟨p, rest, hmet, hlen, hkey, hholds⟩)

/-- The invariant is about the architectural state only. -/
theorem instanceInv_of_sameInstance {s t : State} (h : SameInstance s t) (hs : InstanceInv s) : InstanceInv t := by
  obtain ⟨hkey, hrk, hsbox, hinv⟩ := h
  simpa only [InstanceInv, HoldsInstance, hkey, hrk, hsbox, hinv] using hs

theorem instanceInv_of_unkeyed {t : State} (h : Unkeyed t) : InstanceInv t := by
  obtain ⟨hkey, hsbox, hinv⟩ := h
  exact ⟨by rw [hsbox]; rfl, by rw [hinv]; rfl, fun hk => by rw [hkey] at hk; cases hk⟩

/-- Settles O45: each of the three things a step can do to the architectural state keeps the invariant. -/
theorem instanceInvariantKept : Obligations.InstanceInvariantKept := fun s t hs h => by
  rcases step_architectural_cases h with hsame | ⟨hun, -⟩ | ⟨p, _, -, -, -, hholds, hwf, hwf'⟩
  · exact instanceInv_of_sameInstance hsame hs
  · exact instanceInv_of_unkeyed hun
  · obtain ⟨hsbox, hinv, -⟩ := hs
    exact ⟨hwf hsbox, hwf' hinv, fun _ => ⟨pack p, hholds⟩⟩

/-- Settles O12: each clause is a field of `State.reset`, and an empty table has no cell that holds a value. -/
theorem resetState : Obligations.ResetState := ⟨rfl, rfl, rfl, rfl, memRead_nil, memRead_nil⟩

/-- Settles O47: the reset state is unkeyed with empty tables, and its port is at rest. -/
theorem resetMeetsInvariants : Obligations.ResetMeetsInvariants :=
  ⟨instanceInv_of_unkeyed ⟨rfl, rfl, rfl⟩, Or.inl ⟨rfl, Or.inl rfl⟩⟩

end Sys2Proof
end

section
/-! No step stops on an engine with the invariant (spec/10_state.md R23; spec/42_sbox_generator.md R75). -/

namespace Sys2Proof

open Sys2Proof.Machine

/-- The two tables of a key are inverse to each other (R75). -/
theorem sboxGen_inverse (k : Key) : InverseTables (sboxGen k).1 (sboxGen k).2 := by
  rw [sboxGen_eq, sboxGenWith_snd]
  refine sbInv_inverse ?_ []
  rw [sboxGenWith_fst]
  exact swapLoop_bijective _ _ _ (sbInit_bijective _)

theorem tableFull_of_sameCells {t u : Memory} (h : SameCells t u) (hu : ∀ b, ∃ v, memRead u b = some v) :
    tableFull t = true :=
  (tableFull_iff t).mpr fun b => by rw [h b]; exact hu b

/-- On an engine that holds the tables of a key every cell of both holds a value. -/
theorem tableFull_of_holdsInstance {s : State} {k : Key} (h : HoldsInstance s k) :
    tableFull s.sbox = true ∧ tableFull s.invsbox = true := by
  obtain ⟨-, hsbox, hinv⟩ := h
  obtain ⟨hfwd, hbwd⟩ := sboxGen_inverse k
  exact ⟨tableFull_of_sameCells hsbox fun b => (hfwd b).imp fun _ hv => hv.1,
    tableFull_of_sameCells hinv fun v => (hbwd v).imp fun _ hb => hb.1⟩

theorem encryptRounds_isSome (rk : BitVec 2 → Block) {t : Memory} (h : tableFull t = true) (rs : List (BitVec 2))
    (x : Block) : ∃ y, encryptRounds rk t rs x = some y := by
  induction rs generalizing x with
  | nil => exact ⟨x, rfl⟩
  | cons r rs ih =>
    obtain ⟨y, hy⟩ := pSub_isSome h (diff x)
    simp only [encryptRounds, hy, ih]

theorem decryptRounds_isSome (rk : BitVec 2 → Block) {t : Memory} (h : tableFull t = true) (rs : List (BitVec 2))
    (x : Block) : ∃ y, decryptRounds rk t rs x = some y := by
  induction rs generalizing x with
  | nil => exact ⟨x, rfl⟩
  | cons r rs ih =>
    obtain ⟨y, hy⟩ := ipSub_isSome h (x ^^^ rk r)
    simp only [decryptRounds, hy, ih]

/-- `Encrypt` completes on a full table (R102). -/
theorem encrypt_isSome (p : Block) (rk : BitVec 2 → Block) {t : Memory} (h : tableFull t = true) :
    ∃ c, encrypt p rk t = some c :=
  encryptRounds_isSome rk h _ _

/-- `Decrypt` completes on a full table (R103). -/
theorem decrypt_isSome (c : Block) (rk : BitVec 2 → Block) {t : Memory} (h : tableFull t = true) :
    ∃ p, decrypt c rk t = some p := by
  obtain ⟨x, hx⟩ := decryptRounds_isSome rk h Config.rounds.reverse c
  exact ⟨x ^^^ rk 0#2, by simp only [decrypt, hx]⟩

/-- A block command that passes its checks computes a block: those that read a table need a key, and a keyed engine's
tables are full. -/
theorem blockResult_isSome {i : Instr} (hi : isBlockCommand i = true) {s : State} (hs : InstanceInv s)
    (hkey : needsKey i = true → s.keyValid = true) : ∃ y, blockResult i s = some y := by
  have full (hk : s.keyValid = true) : tableFull s.sbox = true ∧ tableFull s.invsbox = true := by
    obtain ⟨-, -, hholds⟩ := hs
    obtain ⟨k, hk⟩ := hholds hk
    exact tableFull_of_holdsInstance hk
  cases i with
  | key p => cases hi
  | enc p => exact encrypt_isSome _ _ (full (hkey rfl)).1
  | dec p => exact decrypt_isSome _ _ (full (hkey rfl)).2
  | diff p => exact ⟨diff (pack p), rfl⟩
  | psub p => exact pSub_isSome (full (hkey rfl)).1 _
  | ipsub p => exact ipSub_isSome (full (hkey rfl)).2 _

/-- Every command completes on an engine with the invariant. -/
theorem exec_completes (i : Instr) {s : State} (hs : InstanceInv s) : ∃ t, exec i s = .next t := by
  rcases eq_key_or_isBlockCommand i with ⟨p, rfl⟩ | hi
  · rcases exec_key_cases p s with ⟨-, t, ht, -⟩ | ⟨-, t, ht, -⟩ <;> exact ⟨t, ht⟩
  · rcases exec_block_cases i hi s with ⟨-, t, ht, -⟩ | ⟨-, -, -, t, ht, -⟩ | ⟨-, hkey, ⟨_, t, -, ht, -⟩ | ⟨hnone, -⟩⟩
    · exact ⟨t, ht⟩
    · exact ⟨t, ht⟩
    · exact ⟨t, ht⟩
    · obtain ⟨y, hy⟩ := blockResult_isSome hi hs hkey
      cases hnone.symm.trans hy

/-- Settles O49: the one arm of a step that can stop is a decoded command, and that completes. -/
theorem everyStepCompletes : Obligations.EveryStepCompletes := fun s hs => by
  cases hp : nextPortEvent s.hostIn with
  | quiet => exact ⟨_, step_of_quiet hp⟩
  | taken rest => exact ⟨_, step_of_taken hp⟩
  | reset rest => exact ⟨_, step_of_reset hp⟩
  | resetInPacket rest => exact ⟨_, step_of_resetInPacket hp⟩
  | waiting o p => exact ⟨_, step_of_waiting hp⟩
  | packet o p rest =>
    cases hd : decode (o :: p) with
    | error e => exact ⟨_, step_of_decode_error hp hd⟩
    | ok i =>
      rw [step_of_decode_ok hp hd]
      exact exec_completes i (instanceInv_of_sameInstance (accept_sameInstance s rest) hs)

end Sys2Proof
end

section
/-! Engines that agree on everything visible step alike (spec/10_state.md R15, R23). -/

namespace Sys2Proof

open Sys2Proof.Machine

/-- Two steps or commands end alike: in states that agree on everything visible, or in the same fault. -/
def EndAlike (o o' : Host.Outcome State Fault Refusal) : Prop :=
  (∃ s' t', o = .next s' ∧ o' = .next t' ∧ VisiblyEqual s' t') ∨ (∃ f, o = .fault f ∧ o' = .fault f)

theorem endAlike_next {s' t' : State} (h : VisiblyEqual s' t') : EndAlike (.next s') (.next t') :=
  Or.inl ⟨s', t', rfl, rfl, h⟩

/-! ### The port operations keep the agreement -/

section
variable {s t : State} (h : VisiblyEqual s t)
include h

theorem visiblyEqual_drain : VisiblyEqual s.drain t.drain := by
  obtain ⟨hkey, htables, hin, hpend, hsent, hphase⟩ := h
  exact ⟨hkey, htables, hin, rfl, by simp [hsent, hpend], by simp [hpend, hphase]⟩

theorem visiblyEqual_accept (rest : List HostEvent) : VisiblyEqual (s.accept rest) (t.accept rest) := by
  obtain ⟨hkey, htables, -, hpend, hsent, hphase⟩ := visiblyEqual_drain h
  exact ⟨hkey, htables, rfl, hpend, hsent, hphase⟩

theorem visiblyEqual_await (o : Byte) (p : List Byte) : VisiblyEqual (s.await o p) (t.await o p) := by
  obtain ⟨hkey, htables, hin, hpend, hsent, -⟩ := visiblyEqual_drain h
  exact ⟨hkey, htables, hin, hpend, hsent, rfl⟩

theorem visiblyEqual_resetEvent (rest : List HostEvent) : VisiblyEqual (s.resetEvent rest) (t.resetEvent rest) := by
  obtain ⟨-, -, -, -, hsent, -⟩ := h
  exact ⟨rfl, fun hk => Bool.noConfusion hk, rfl, rfl, hsent, rfl⟩

theorem visiblyEqual_takeOne (rest : List HostEvent) : VisiblyEqual (s.takeOne rest) (t.takeOne rest) := by
  obtain ⟨hkey, htables, -, hpend, hsent, hphase⟩ := h
  unfold State.takeOne
  cases hs : s.rspPending with
  | nil =>
    rw [transfer_nil s hs, transfer_nil t (hpend ▸ hs)]
    exact ⟨hkey, htables, rfl, hpend, hsent, hphase⟩
  | cons b bs =>
    rw [transfer_cons s hs, transfer_cons t (hpend ▸ hs)]
    exact ⟨hkey, htables, rfl, rfl, by simp only [hsent], by simp only [hphase]⟩

/-- One answer given in two states that agree leaves states that agree. -/
theorem visiblyEqual_answered {s' t' : State} {status : Status} {data : Option Block}
    (hs : Answered s s' status data) (ht : Answered t t' status data) : VisiblyEqual s' t' := by
  obtain ⟨hkey, htables, hin, -, hsent, -⟩ := h
  obtain ⟨⟨sPend, sIn, sSent⟩, ⟨sKey, sRk, sSbox, sInv⟩, sPhase⟩ := hs
  obtain ⟨⟨tPend, tIn, tSent⟩, ⟨tKey, tRk, tSbox, tInv⟩, tPhase⟩ := ht
  refine ⟨by rw [sKey, tKey, hkey], fun hk => ?_, by rw [sIn, tIn, hin], by rw [sPend, tPend],
    by rw [sSent, tSent, hsent], by rw [sPhase, tPhase]⟩
  rw [sRk, tRk, sSbox, tSbox, sInv, tInv]
  exact htables (sKey ▸ hk)

end

/-! ### The ciphers see only the cells of their table -/

theorem encryptRounds_sameCells {t u : Memory} (h : SameCells t u) (rk : BitVec 2 → Block) (rs : List (BitVec 2))
    (x : Block) : encryptRounds rk t rs x = encryptRounds rk u rs x := by
  induction rs generalizing x with
  | nil => rfl
  | cons r rs ih => simp only [encryptRounds, pSub_sameCells h, ih]

theorem decryptRounds_sameCells {t u : Memory} (h : SameCells t u) (rk : BitVec 2 → Block) (rs : List (BitVec 2))
    (x : Block) : decryptRounds rk t rs x = decryptRounds rk u rs x := by
  induction rs generalizing x with
  | nil => rfl
  | cons r rs ih => simp only [decryptRounds, ipSub_sameCells h, ih]

theorem encrypt_sameCells {t u : Memory} (h : SameCells t u) (p : Block) (rk : BitVec 2 → Block) :
    encrypt p rk t = encrypt p rk u :=
  encryptRounds_sameCells h rk _ _

theorem decrypt_sameCells {t u : Memory} (h : SameCells t u) (c : Block) (rk : BitVec 2 → Block) :
    decrypt c rk t = decrypt c rk u := by
  simp only [decrypt, decryptRounds_sameCells h]

/-! ### Commands and steps -/

/-- A block command that passes its checks computes the same block in states that agree: it reads round keys and tables
of a keyed engine only. -/
theorem blockResult_visiblyEqual {s t : State} (h : VisiblyEqual s t) {i : Instr}
    (hkey : needsKey i = true → s.keyValid = true) : blockResult i s = blockResult i t := by
  obtain ⟨-, htables, -⟩ := h
  have agree (hk : s.keyValid = true) :
      s.readRk = t.readRk ∧ SameCells s.sbox t.sbox ∧ SameCells s.invsbox t.invsbox := by
    obtain ⟨hrk, hsbox, hinv⟩ := htables hk
    exact ⟨funext fun r => by simp only [State.readRk, hrk], hsbox, hinv⟩
  cases i with
  | key p => rfl
  | enc p => obtain ⟨hrk, hsbox, -⟩ := agree (hkey rfl); simp only [blockResult, hrk, encrypt_sameCells hsbox]
  | dec p => obtain ⟨hrk, -, hinv⟩ := agree (hkey rfl); simp only [blockResult, hrk, decrypt_sameCells hinv]
  | diff p => rfl
  | psub p => obtain ⟨-, hsbox, -⟩ := agree (hkey rfl); exact pSub_sameCells hsbox _
  | ipsub p => obtain ⟨-, -, hinv⟩ := agree (hkey rfl); exact ipSub_sameCells hinv _

theorem blockAnswer_visiblyEqual {s t : State} (h : VisiblyEqual s t) (i : Instr) :
    blockAnswer i s = blockAnswer i t :=
  blockAnswer_congr h.1 (blockResult_visiblyEqual h)

/-- `KEY` gives one answer in states that agree, and then both hold the tables and round keys of its payload. -/
theorem exec_key_endAlike {s t : State} (h : VisiblyEqual s t) (p : List Byte) :
    EndAlike (exec (.key p) s) (exec (.key p) t) := by
  rcases exec_key_cases p s with ⟨hlen, s', hs, sAns⟩ | ⟨hlen, s', hs, sAns, sPhase, sKey, sHolds, -⟩ <;>
    rcases exec_key_cases p t with ⟨hlen', t', ht, tAns⟩ | ⟨hlen', t', ht, tAns, tPhase, tKey, tHolds, -⟩
  · rw [hs, ht]; exact endAlike_next (visiblyEqual_answered h sAns tAns)
  · exact absurd hlen' hlen
  · exact absurd hlen hlen'
  · rw [hs, ht]
    obtain ⟨-, -, hin, -, hsent, -⟩ := h
    obtain ⟨sPend, sIn, sSent⟩ := sAns
    obtain ⟨tPend, tIn, tSent⟩ := tAns
    obtain ⟨sRk, sSbox, sInv⟩ := sHolds
    obtain ⟨tRk, tSbox, tInv⟩ := tHolds
    exact endAlike_next ⟨by rw [sKey, tKey],
      fun _ => ⟨by rw [sRk, tRk], fun b => by rw [sSbox, tSbox], fun b => by rw [sInv, tInv]⟩,
      by rw [sIn, tIn, hin], by rw [sPend, tPend], by rw [sSent, tSent, hsent], by rw [sPhase, tPhase]⟩

/-- Every command ends alike in states that agree. -/
theorem exec_endAlike {s t : State} (h : VisiblyEqual s t) (i : Instr) : EndAlike (exec i s) (exec i t) := by
  rcases eq_key_or_isBlockCommand i with ⟨p, rfl⟩ | hi
  · exact exec_key_endAlike h p
  · rcases exec_block_congr hi (blockAnswer_visiblyEqual h i) with ⟨_, s', t', hs, ht, sAns, tAns⟩ | hf
    · exact Or.inl ⟨s', t', hs, ht, visiblyEqual_answered h sAns tAns⟩
    · exact Or.inr hf

/-- Settles O50: states that agree meet the same thing at the port, and each arm of the step keeps the agreement. -/
theorem unspecifiedValuesUnobservable : Obligations.UnspecifiedValuesUnobservable := fun s t h => by
  change EndAlike (step s) (step t)
  have hin : t.hostIn = s.hostIn := by
    obtain ⟨-, -, hin, -⟩ := h
    exact hin.symm
  cases hp : nextPortEvent s.hostIn with
  | quiet => rw [step_of_quiet hp, step_of_quiet (hin ▸ hp)]; exact endAlike_next h
  | taken rest => rw [step_of_taken hp, step_of_taken (hin ▸ hp)]; exact endAlike_next (visiblyEqual_takeOne h rest)
  | reset rest => rw [step_of_reset hp, step_of_reset (hin ▸ hp)]; exact endAlike_next (visiblyEqual_resetEvent h rest)
  | resetInPacket rest =>
    rw [step_of_resetInPacket hp, step_of_resetInPacket (hin ▸ hp)]
    exact endAlike_next (visiblyEqual_resetEvent (visiblyEqual_drain h) rest)
  | waiting o p => rw [step_of_waiting hp, step_of_waiting (hin ▸ hp)]; exact endAlike_next (visiblyEqual_await h o p)
  | packet o p rest =>
    have hp' : nextPortEvent t.hostIn = .packet o p rest := hin ▸ hp
    have hacc := visiblyEqual_accept h rest
    cases hd : decode (o :: p) with
    | error e =>
      rw [step_of_decode_error hp hd, step_of_decode_error hp' hd]
      exact endAlike_next
        (visiblyEqual_answered hacc (illegalCommand_answered o p _) (illegalCommand_answered o p _))
    | ok i =>
      rw [step_of_decode_ok hp hd, step_of_decode_ok hp' hd]
      exact exec_endAlike hacc i

end Sys2Proof
end

section
/-! Which table a block command reaches (spec/20_memory.md R31). -/

namespace Sys2Proof

open Sys2Proof.Machine

/-- A block command sends the same in two states of one flag in which it computes the same block. -/
theorem rspPending_of_blockResult_eq {i : Instr} (hi : isBlockCommand i = true) {s u t : State}
    (hflag : s.keyValid = u.keyValid) (hresult : blockResult i s = blockResult i u) (ht : exec i s = .next t) :
    ∃ v, exec i u = .next v ∧ v.rspPending = t.rspPending :=
  rspPending_of_blockAnswer_eq hi (blockAnswer_congr hflag fun _ => hresult) ht

/-- The commands that reach no cell of `INVSBOX`. -/
theorem blockResult_invsbox_unread {i : Instr} {p : List Byte} (hi : i = .enc p ∨ i = .psub p) (s : State)
    (m : Memory) : blockResult i s = blockResult i { s with invsbox := m } := by
  rcases hi with rfl | rfl
  · rfl
  · rfl

/-- The commands that reach no cell of `SBOX`. -/
theorem blockResult_sbox_unread {i : Instr} {p : List Byte} (hi : i = .dec p ∨ i = .ipsub p) (s : State)
    (m : Memory) : blockResult i s = blockResult i { s with sbox := m } := by
  rcases hi with rfl | rfl
  · rfl
  · rfl

/-- `DIFF` reaches no table: its block is that of the operand alone (R119). -/
theorem blockResult_diff_eq (p : List Byte) (s u : State) : blockResult (.diff p) s = blockResult (.diff p) u := rfl

/-- Settles O43: the block of each command is computed from the table it reaches, and the response from that block. -/
theorem tablesReached : Obligations.TablesReached := fun p s m =>
  ⟨fun _ => rspPending_of_blockResult_eq rfl rfl (blockResult_invsbox_unread (Or.inl rfl) s m),
    fun _ => rspPending_of_blockResult_eq rfl rfl (blockResult_invsbox_unread (Or.inr rfl) s m),
    fun _ => rspPending_of_blockResult_eq rfl rfl (blockResult_sbox_unread (Or.inl rfl) s m),
    fun _ => rspPending_of_blockResult_eq rfl rfl (blockResult_sbox_unread (Or.inr rfl) s m),
    fun _ => rspPending_of_blockResult_eq rfl rfl (blockResult_diff_eq p s { s with sbox := m, invsbox := m })⟩

end Sys2Proof
end

section
/-! A packet on the command stream: its framing, its decoding and the registers it fills (spec/30_encoding.md R45, R46,
R48 to R51). -/

namespace Sys2Proof

open Sys2Proof.Machine

/-! ### Commands as packets -/

/-- The bytes a command is sent as decode to it (R46, R49). -/
theorem decode_encode (i : Instr) : decode (encode i) = .ok i := by
  cases i with
  | key p => exact Laws.Encoding.key p
  | enc p => exact Laws.Encoding.enc p
  | dec p => exact Laws.Encoding.dec p
  | diff p => exact Laws.Encoding.diff p
  | psub p => exact Laws.Encoding.psub p
  | ipsub p => exact Laws.Encoding.ipsub p

/-- Only its encoding decodes to a command: `decode` is injective where it answers one (R49). -/
theorem eq_encode_of_decode {bytes : List Byte} {i : Instr} (h : decode bytes = .ok i) : bytes = encode i := by
  cases bytes with
  | nil => cases h
  | cons o p => exact (encode_of_decode h).symm

/-- Settles O2: the port frames the packet whole, and `decode` inverts `encode` both ways. -/
theorem packetRoundTrip : Obligations.PacketRoundTrip :=
  ⟨fun i after => ⟨i.opcode, i.payload, nextPortEvent_packetEvents _ _ after, decode_encode i⟩,
    fun _ _ => eq_encode_of_decode⟩

/-- An opcode byte outside R49 decodes to no command, whatever the payload (R50). -/
theorem decode_of_illegal {o : Byte} (h : o ∉ legalOpcodes) (p : List Byte) :
    decode (o :: p) = .error (.illegalOpcode o) := by
  change o ∉ [opcodeKey, opcodeEnc, opcodeDec, opcodeDiff, opcodePsub, opcodeIpsub] at h
  simp only [List.mem_cons, List.not_mem_nil, or_false, not_or] at h
  obtain ⟨hkey, henc, hdec, hdiff, hpsub, hipsub⟩ := h
  rw [decode, decodeCommand, if_neg hkey, if_neg henc, if_neg hdec, if_neg hdiff, if_neg hpsub, if_neg hipsub]

/-- Each opcode byte of R49 is the opcode of a command, with any payload. -/
theorem exists_encode_of_legal {o : Byte} (h : o ∈ legalOpcodes) (p : List Byte) : ∃ i, encode i = o :: p := by
  simp only [legalOpcodes, List.mem_cons, List.not_mem_nil, or_false] at h
  rcases h with rfl | rfl | rfl | rfl | rfl | rfl
  · exact ⟨.key p, rfl⟩
  · exact ⟨.enc p, rfl⟩
  · exact ⟨.dec p, rfl⟩
  · exact ⟨.diff p, rfl⟩
  · exact ⟨.psub p, rfl⟩
  · exact ⟨.ipsub p, rfl⟩

/-- Only an opcode byte outside R49 decodes to no command. -/
theorem illegal_of_decode_error {o : Byte} {p : List Byte} {e : DecodeError} (h : decode (o :: p) = .error e) :
    o ∉ legalOpcodes := fun hmem => by
  obtain ⟨i, hi⟩ := exists_encode_of_legal hmem p
  rw [← hi, decode_encode] at h
  cases h

/-- Settles O1: the six commands are their own packets decoded, and the three other opcode bytes are outside R49. -/
theorem samplePacketsDecode : Obligations.SamplePacketsDecode :=
  ⟨decode_encode (.enc _), decode_encode (.key _), decode_encode (.dec _), decode_encode (.diff _),
    decode_encode (.psub _), decode_encode (.ipsub _), decode_of_illegal (by decide) _, decode_of_illegal (by decide) _,
    decode_of_illegal (by decide) _⟩

/-! ### The packet-assembly registers -/

/-- A value of `LEN`, by the saturating count (R51). -/
theorem latchLen_eq_iff (p : List Byte) (n : BitVec 5) : latchLen p = n ↔ min p.length 17 = n.toNat := by
  rw [← latchLen_toNat, BitVec.toNat_inj]

/-- Settles O10: `LEN` by its saturating count, `INB` by the sixteen lanes of a whole operand. -/
theorem packetRegisters : Obligations.PacketRegisters := fun s o p => by
  refine ⟨s.receive_opc o p, fun h => ?_, fun h => ?_, ?_, fun h => ?_⟩
  · rw [State.receive_len, latchLen_toNat]; omega
  · rw [State.receive_len, latchLen_eq_iff, BitVec.toNat_ofNat]; omega
  · rw [State.receive_len, latchLen_eq_iff, BitVec.toNat_ofNat]; omega
  · rw [State.receive_inb, latchInb_eq_pack h]

/-! ### Taking a response byte -/

theorem takeOne_cons {s : State} {b : Beat} {bs : List Beat} (h : s.rspPending = b :: bs) (rest : List HostEvent) :
    s.takeOne rest =
      { s with
        hostIn := rest, rspPending := bs, rspSent := s.rspSent ++ [b]
        phase := if bs = [] then .idle else s.phase } := by
  rw [State.takeOne, transfer_cons s h]

theorem takeOne_nil {s : State} (h : s.rspPending = []) (rest : List HostEvent) :
    s.takeOne rest = { s with hostIn := rest } := by
  rw [State.takeOne, transfer_nil s h]

/-- A `take` after any bytes of a packet in progress does not change its framing (log entry 9). -/
theorem framePayload_take (o : Byte) (p bs : List Byte) (rest : List HostEvent) :
    framePayload o p (bs.map (fun b => .cmd ⟨b, false⟩) ++ .take :: rest) =
      framePayload o p (bs.map (fun b => .cmd ⟨b, false⟩) ++ rest) := by
  rw [framePayload_open, framePayload_open, framePayload]

/-- Settles O8: the step that meets a `take` is `takeOne`, with a response pending and with none; inside a packet the
`take` is passed over. -/
theorem takeTransfersOneByte : Obligations.TakeTransfersOneByte := by
  have step_take {s : State} {rest : List HostEvent} (hin : s.hostIn = .take :: rest) :
      step s = .next (s.takeOne rest) := step_of_taken (by rw [hin, nextPortEvent])
  refine ⟨fun s b bs rest hin hpend => ?_, fun s rest hin hpend => ?_, fun o p rest => framePayload_take o [] p rest⟩
  · rw [step_take hin, takeOne_cons hpend]
    exact ⟨_, rfl, rfl, rfl, rfl, rfl, rfl, rfl, rfl, rfl⟩
  · rw [step_take hin, takeOne_nil hpend]

end Sys2Proof
end

section
/-! The response to a command packet (spec/30_encoding.md R45, R47, R52; spec/60_exceptions.md R131 to R135). -/

namespace Sys2Proof

open Sys2Proof.Machine

/-! ### Response packets -/

/-- `last` is set on the last transfer of a packet only (R45). -/
theorem beatsOf_getElem?_last (bs : List Byte) {j : Nat} (h : j < bs.length) :
    ((beatsOf bs)[j]?).map Beat.last = some (decide (j + 1 = bs.length)) := by
  induction bs generalizing j with
  | nil => cases h
  | cons b bs ih =>
    cases bs with
    | nil =>
      obtain rfl : j = 0 := Nat.lt_one_iff.mp h
      rfl
    | cons c bs =>
      cases j with
      | zero => simp [beatsOf]
      | succ j => simpa [beatsOf] using ih (Nat.lt_of_succ_lt_succ h)

/-- A response is 17 bytes with a block and 1 byte without (R47). -/
theorem responseBytes_length (status : Status) (data : Option Block) :
    (responseBytes status data).length = if data.isSome = true then 17 else 1 := by
  cases data with
  | none => rfl
  | some x => rfl

theorem isSome_iff_responseBytes_length (status : Status) (data : Option Block) :
    data.isSome = true ↔ (responseBytes status data).length = 17 := by
  cases data with
  | none => exact ⟨nofun, nofun⟩
  | some x => exact ⟨fun _ => rfl, fun _ => rfl⟩

/-- The status byte is one of the five codes of R52. -/
theorem statusCode_mem (status : Status) :
    some (statusCode status) ∈ [some 0x00#8, some 0x01#8, some 0x02#8, some 0x03#8, some 0x04#8] := by
  cases status <;> decide

/-- Byte `i` of a block on the wire is its bits `8i+7..8i` (R6, R47). -/
theorem unpack_getElem? (x : Block) (i : Lane) : (unpack x)[i.val]? = some (x.extractLsb' (8 * i.val) 8) := by
  have hi : i.val < (unpack x).length := by rw [unpack_length]; exact i.isLt
  rw [List.getElem?_eq_getElem hi, unpack_getElem]
  rfl

/-! ### The status of a packet -/

theorem opcode_mem_legalOpcodes (i : Instr) : i.opcode ∈ legalOpcodes := by
  cases i <;> simp [Instr.opcode, legalOpcodes, opcodeKey, opcodeEnc, opcodeDec, opcodeDiff, opcodePsub, opcodeIpsub]

theorem opcode_mem_keyedOpcodes_iff (i : Instr) : i.opcode ∈ keyedOpcodes ↔ needsKey i = true := by
  cases i <;> simp [Instr.opcode, needsKey, keyedOpcodes, opcodeKey, opcodeEnc, opcodeDec, opcodeDiff, opcodePsub,
    opcodeIpsub]

theorem opcode_eq_key_iff (i : Instr) : i.opcode = 0x01#8 ↔ isBlockCommand i = false := by
  cases i <;> simp [Instr.opcode, isBlockCommand, opcodeKey, opcodeEnc, opcodeDec, opcodeDiff, opcodePsub, opcodeIpsub]

/-- The status of a command's packet, by the checks of R115 that are left once its opcode has been decoded. -/
theorem expectedStatus_opcode (i : Instr) (n : Nat) (kv : Bool) :
    expectedStatus i.opcode n kv =
      if n ≠ 16 then (if isBlockCommand i = false then .invalidKeyLength else .invalidBlockLength)
      else if needsKey i = true ∧ kv = false then .noKey
      else .ok := by
  simp only [expectedStatus, opcode_mem_legalOpcodes, opcode_mem_keyedOpcodes_iff, opcode_eq_key_iff, not_true,
    if_false]

/-- What a block command answers has the status of R131 to R133, and carries a block exactly where that is `OK`. -/
theorem blockAnswer_status {i : Instr} (hi : isBlockCommand i = true) {s : State} {a : Status × Option Block}
    (h : blockAnswer i s = some a) :
    expectedStatus i.opcode i.payload.length s.keyValid = a.1 ∧ (a.2.isSome = true ↔ a.1 = .ok) := by
  rw [expectedStatus_opcode, if_neg (by rw [hi]; decide : ¬ isBlockCommand i = false)]
  unfold blockAnswer at h
  by_cases hlen : i.payload.length ≠ 16
  · rw [if_pos hlen] at h ⊢
    cases h
    exact ⟨rfl, by decide⟩
  · rw [if_neg hlen] at h ⊢
    by_cases hkey : needsKey i = true ∧ s.keyValid = false
    · rw [if_pos (by simp [State.lacksKey, hkey])] at h
      rw [if_pos hkey]
      cases h
      exact ⟨rfl, by decide⟩
    · rw [if_neg (by simpa [State.lacksKey] using hkey)] at h
      rw [if_neg hkey]
      obtain ⟨y, -, rfl⟩ := Option.map_eq_some_iff.mp h
      exact ⟨rfl, iff_of_true rfl rfl⟩

/-! ### Every packet is answered by one response -/

/-- `t` is about to send the answer of `s` to the packet: the status of R131 to R135, with a block exactly for a block
command that answers `OK`. -/
def AnswersPacket (o : Byte) (p : List Byte) (s t : State) : Prop :=
  (t.phase = .resp ∨ t.phase = .err) ∧
    ∃ data, AnswersWith s t (expectedStatus o p.length s.keyValid) data ∧
      (data.isSome = true ↔ expectedStatus o p.length s.keyValid = .ok ∧ o ≠ 0x01#8)

theorem answersPacket_of_answered {o : Byte} {p : List Byte} {s t : State} {status : Status} {data : Option Block}
    (h : Answered s t status data) (hstatus : expectedStatus o p.length s.keyValid = status)
    (hdata : data.isSome = true ↔ status = .ok ∧ o ≠ 0x01#8) : AnswersPacket o p s t := by
  subst hstatus
  exact ⟨h.sending, data, h.1, hdata⟩

theorem answersPacket_of_exec_key {p : List Byte} {s t : State} (h : exec (.key p) s = .next t) :
    AnswersPacket opcodeKey p s t := by
  have hstatus : expectedStatus opcodeKey p.length s.keyValid = if p.length ≠ 16 then .invalidKeyLength else .ok :=
    expectedStatus_opcode (.key p) _ _
  rcases exec_key_cases p s with ⟨hlen, u, hu, hans⟩ | ⟨hlen, u, hu, hans, hphase, -⟩ <;>
    obtain rfl : u = t := Host.Outcome.next.inj (hu.symm.trans h)
  · exact answersPacket_of_answered hans (hstatus.trans (if_pos hlen)) (by decide)
  · rw [if_neg (not_not.mpr hlen)] at hstatus
    exact ⟨Or.inl hphase, none, by rwa [hstatus], by rw [hstatus]; decide⟩

/-- A command that completes has answered with the status of its first failing check. -/
theorem answersPacket_of_exec {i : Instr} {s t : State} (h : exec i s = .next t) :
    AnswersPacket i.opcode i.payload s t := by
  rcases eq_key_or_isBlockCommand i with ⟨p, rfl⟩ | hi
  · exact answersPacket_of_exec_key h
  · have hopcode : i.opcode ≠ 0x01#8 := fun hkey => by cases hi.symm.trans ((opcode_eq_key_iff i).mp hkey)
    rcases exec_block_answers hi s with ⟨a, u, ha, hu, hans⟩ | ⟨-, hf⟩
    · obtain rfl : u = t := Host.Outcome.next.inj (hu.symm.trans h)
      obtain ⟨hstatus, hdata⟩ := blockAnswer_status hi ha
      exact answersPacket_of_answered hans hstatus (hdata.trans (and_iff_left hopcode).symm)
    · cases hf.symm.trans h

theorem answersPacket_illegalCommand {o : Byte} (h : o ∉ legalOpcodes) (p : List Byte) (s : State) :
    AnswersPacket o p s (illegalCommand o p s) :=
  answersPacket_of_answered (illegalCommand_answered o p s) (if_pos h) (iff_of_false nofun nofun)

/-- A step that takes a packet and completes has answered it, on the state that has taken it off the stream (R45). -/
theorem answersPacket_of_step {s t : State} {o : Byte} {p : List Byte} {rest : List HostEvent}
    (hp : nextPortEvent s.hostIn = .packet o p rest) (h : step s = .next t) : AnswersPacket o p (s.accept rest) t := by
  cases hd : decode (o :: p) with
  | error e =>
    cases (step_of_decode_error hp hd).symm.trans h
    exact answersPacket_illegalCommand (illegal_of_decode_error hd) p _
  | ok i =>
    obtain ⟨rfl, rfl⟩ : i.opcode = o ∧ i.payload = p := List.cons.inj (encode_of_decode hd)
    exact answersPacket_of_exec ((step_of_decode_ok hp hd).symm.trans h)

/-- Settles O4: no command decodes, and `IllegalCommand` is raised on the state that has taken the packet. -/
theorem illegalOpcodeAnswered : Obligations.IllegalOpcodeAnswered := fun s o p rest ho hin => by
  have hp : nextPortEvent s.hostIn = .packet o p rest := by rw [hin, nextPortEvent_packetEvents]
  obtain ⟨⟨hpend, hin', hsent⟩, hsame, -⟩ := illegalCommand_answered o p (s.accept rest)
  exact ⟨_, step_of_decode_error hp (decode_of_illegal ho p), hpend, hsame, hin'.trans (s.accept_hostIn rest),
    hsent.trans (s.accept_rspSent rest)⟩

/-- Settles O51: the packet is answered on the state that has sent all of the earlier response. -/
theorem oneResponsePerCommand : Obligations.OneResponsePerCommand := fun s t o p rest hp h => by
  obtain ⟨-, data, ⟨hpend, hin, hsent⟩, -⟩ := answersPacket_of_step hp h
  exact ⟨hsent.trans (s.accept_rspSent rest), hin.trans (s.accept_hostIn rest), _, data, hpend⟩

/-- Settles O7: the packet is answered in its step with the response of its expected status; the rest is the shape of
a response packet. -/
theorem responseShape : Obligations.ResponseShape := by
  refine ⟨fun s o p rest hs hin => ?_, rfl, rfl, rfl, rfl, rfl, fun x => beatsOf_data _, unpack_getElem?⟩
  have hp : nextPortEvent s.hostIn = .packet o p rest := by rw [hin, nextPortEvent_packetEvents]
  obtain ⟨t, ht⟩ := everyStepCompletes s hs
  obtain ⟨-, data, ⟨hpend, -, -⟩, hdata⟩ := answersPacket_of_step hp ht
  rw [State.accept_keyValid] at hpend hdata
  refine ⟨t, responseBytes _ data, ht, hpend, ?_, statusCode_mem _, fun j hj => ?_, data, hpend,
    isSome_iff_responseBytes_length _ data⟩
  · rw [responseBytes_length]
    exact if_congr hdata rfl rfl
  · rw [hpend]
    exact beatsOf_getElem?_last _ hj

/-! ### The port invariant -/

theorem portInv_of_no_response {s : State} (hpend : s.rspPending = []) (hphase : s.phase = .idle ∨ s.phase = .recv) :
    PortInv s :=
  Or.inl ⟨hpend, hphase⟩

theorem portInv_of_answersPacket {o : Byte} {p : List Byte} {s t : State} (h : AnswersPacket o p s t) :
    PortInv t := by
  obtain ⟨hphase, data, ⟨hpend, -, -⟩, -⟩ := h
  have hlen := responseBytes_length (expectedStatus o p.length s.keyValid) data
  exact Or.inr ⟨_, hpend, by split at hlen <;> omega, by split at hlen <;> omega, hphase⟩

/-- Taking one byte leaves the rest of the same response, or a port at rest after its last byte (R106). -/
theorem portInv_takeOne {s : State} (h : PortInv s) (rest : List HostEvent) : PortInv (s.takeOne rest) := by
  cases hb : s.rspPending with
  | nil => rw [takeOne_nil hb]; exact h
  | cons b bs =>
    rcases h with ⟨hnil, -⟩ | ⟨bytes, hpend, -, hle, hphase⟩
    · cases hnil.symm.trans hb
    · obtain ⟨htail, hlen⟩ := beatsOf_tail (hpend.symm.trans hb)
      rw [takeOne_cons hb]
      by_cases hbs : bs = []
      · exact portInv_of_no_response hbs (Or.inl (if_pos hbs))
      · have hpos : 0 < bs.length := List.length_pos_iff.mpr hbs
        have htailLen : bytes.tail.length = bs.length := by rw [List.length_tail, hlen, Nat.add_sub_cancel]
        exact Or.inr ⟨bytes.tail, htail, by omega, by omega, by simpa only [if_neg hbs] using hphase⟩

/-- Settles O46: each arm of the step leaves the port at rest, in a packet, or with the rest of one response. -/
theorem portInvariantKept : Obligations.PortInvariantKept := fun s t hs h => by
  cases hp : nextPortEvent s.hostIn with
  | quiet => cases (step_of_quiet hp).symm.trans h; exact hs
  | taken rest => cases (step_of_taken hp).symm.trans h; exact portInv_takeOne hs rest
  | reset rest => cases (step_of_reset hp).symm.trans h; exact portInv_of_no_response rfl (Or.inl rfl)
  | resetInPacket rest => cases (step_of_resetInPacket hp).symm.trans h; exact portInv_of_no_response rfl (Or.inl rfl)
  | waiting o p => cases (step_of_waiting hp).symm.trans h; exact portInv_of_no_response rfl (Or.inr rfl)
  | packet o p rest => exact portInv_of_answersPacket (answersPacket_of_step hp h)

end Sys2Proof
end

section
/-! The key schedule (spec/41_key_schedule.md): the shift amounts, a round key bit by bit, and which bits of the key
do not reach it. -/

namespace Sys2Proof

open Sys2Proof.Machine

/-! ### The shift amounts (R60) -/

theorem shamt_eq_two_pow : ∀ i : Fin 8, 0 < i.val → Config.shamt[i] = 2 ^ (i.val - 1) := by decide

theorem shamt_pos {i : Fin 8} (hi : i ≠ 0) : 0 < Config.shamt[i] := by
  rw [shamt_eq_two_pow i (Fin.pos_iff_ne_zero.mpr hi)]
  exact Nat.two_pow_pos _

/-! ### One round key (R61) -/

theorem roundKey_getLsbD (k : Block) (i : Fin 8) {p : Nat} (hp : p < 128) :
    (roundKey k i).getLsbD p = if Config.shamt[i] ≤ p then k.getLsbD (p - Config.shamt[i]) else false := by
  rw [roundKey, BitVec.getLsbD_shiftLeft, decide_eq_true hp, Bool.true_and]
  by_cases h : p < Config.shamt[i]
  · rw [if_neg (Nat.not_le.mpr h), decide_eq_true h, Bool.not_true, Bool.false_and]
  · rw [if_pos (Nat.not_lt.mp h), decide_eq_false h, Bool.not_false, Bool.true_and]

theorem roundKey_toNat (k : Block) (i : Fin 8) :
    (roundKey k i).toNat = k.toNat * 2 ^ Config.shamt[i] % 2 ^ 128 := by
  rw [roundKey, BitVec.toNat_shiftLeft, Nat.shiftLeft_eq]

theorem roundKey_getLsbD_of_lt_shamt (k : Block) (i : Fin 8) {p : Nat} (hp : p < Config.shamt[i]) :
    (roundKey k i).getLsbD p = false := by
  by_cases h : p < 128
  · rw [roundKey_getLsbD k i h, if_neg (Nat.not_le.mpr hp)]
  · exact BitVec.getLsbD_of_ge _ p (Nat.not_lt.mp h)

theorem roundKey_xor (k k' : Block) (i : Fin 8) : roundKey (k ^^^ k') i = roundKey k i ^^^ roundKey k' i :=
  BitVec.shiftLeft_xor_distrib k k' _

@[simp] theorem roundKey_index_zero (k : Block) : roundKey k 0 = k :=
  BitVec.shiftLeft_zero k

/-- The shift discards the top `SHAMT[i]` bits: a key with no other bit set has round key 0. -/
theorem roundKey_eq_zero {d : Block} {i : Fin 8} (hd : ∀ p, p + Config.shamt[i] < 128 → d.getLsbD p = false) :
    roundKey d i = 0#128 := by
  refine block_eq_of_bits fun p hp => ?_
  rw [roundKey_getLsbD d i hp, BitVec.getLsbD_zero]
  split
  next h => exact hd _ ((Nat.sub_add_cancel h).trans_lt hp)
  next => rfl

/-- Two keys that differ only in their top `SHAMT[i]` bits share round key `i`. -/
theorem roundKey_xor_discarded (k : Block) {d : Block} {i : Fin 8}
    (hd : ∀ p, p + Config.shamt[i] < 128 → d.getLsbD p = false) : roundKey (k ^^^ d) i = roundKey k i := by
  rw [roundKey_xor, roundKey_eq_zero hd, BitVec.xor_zero]

theorem topBit_getLsbD_of_lt {p : Nat} (hp : p < 127) : (1#128 <<< 127).getLsbD p = false := by
  rw [BitVec.getLsbD_shiftLeft, decide_eq_true hp, Bool.not_true, Bool.and_false, Bool.false_and]

theorem roundKey_xor_topBit (k : Block) {i : Fin 8} (hi : i ≠ 0) :
    roundKey (k ^^^ (1#128 <<< 127)) i = roundKey k i :=
  roundKey_xor_discarded k fun _ hp => topBit_getLsbD_of_lt (by have := shamt_pos hi; omega)

theorem roundKey_index_zero_xor_topBit_ne (k : Block) : roundKey (k ^^^ (1#128 <<< 127)) 0 ≠ roundKey k 0 := by
  rw [roundKey_index_zero, roundKey_index_zero]
  intro h
  have hzero : 1#128 <<< 127 = 0#128 := (BitVec.xor_right_inj k).mp (h.trans BitVec.xor_zero.symm)
  exact absurd hzero (by decide)

/-! ### The eight round keys (R62) -/

theorem roundKeys_eq_ofFn (k : Block) : roundKeys k = Vector.ofFn (roundKey k) := rfl

theorem roundKeys_getElem (k : Block) (i : Fin 8) : (roundKeys k)[i] = roundKey k i := by
  rw [roundKeys_eq_ofFn]
  exact Vector.getElem_ofFn i.isLt

/-! ### The obligations -/

/-- Settles O17: the shift is linear and discards the top `SHAMT[i]` bits; `SHAMT[3] = 4`, and `SHAMT[i]` is 0 only
for `i = 0`. -/
theorem keyScheduleLinear : Obligations.KeyScheduleLinear :=
  ⟨roundKey_xor, fun k i _ hp => roundKey_getLsbD_of_lt_shamt k i hp, fun k _ hi => roundKey_xor_topBit k hi,
    roundKey_index_zero_xor_topBit_ne,
    fun k _ hd => roundKey_xor_discarded k fun p hp => hd p (Nat.lt_of_add_lt_add_right hp),
    fun k => (roundKeys_getElem k 0).trans (roundKey_index_zero k)⟩

/-- Settles O15: a left shift of a 128-bit word, bit by bit and as a product. -/
theorem roundKeyBits : Obligations.RoundKeyBits := fun k i =>
  ⟨fun _ hp => roundKey_getLsbD k i hp, roundKey_toNat k i⟩

/-- Settles O16: `KS` stores the eight round keys of `INB` and leaves the other architectural fields. -/
theorem keyScheduleWritesAllRoundKeys : Obligations.KeyScheduleWritesAllRoundKeys :=
  ⟨fun s i => by rw [opKs_rk, roundKeys_getElem],
    fun s => ⟨opKs_keyValid s, opKs_sbox s, opKs_invsbox s⟩, rfl, shamt_eq_two_pow⟩

end Sys2Proof
end

section
/-! The generator XS64 (spec/42_sbox_generator.md R68 to R70): the fold of the key, and the step as a composition of
three invertible linear maps. -/

namespace Sys2Proof

open Sys2Proof.Machine

/-! ### The seed (R68) -/

/-- The XOR of the two 64-bit halves of a key. -/
def keyFold (k : Key) : BitVec 64 := k.extractLsb' 0 64 ^^^ k.extractLsb' 64 64

theorem prngSeed_eq (k : Key) : prngSeed k = if keyFold k = 0#64 then 0x9E3779B97F4A7C15#64 else keyFold k := rfl

theorem keyFold_eq_zero_iff (k : Key) : keyFold k = 0#64 ↔ k.extractLsb' 0 64 = k.extractLsb' 64 64 :=
  BitVec.xor_eq_zero_iff

theorem prngSeed_of_halves_eq {k : Key} (h : k.extractLsb' 0 64 = k.extractLsb' 64 64) :
    prngSeed k = 0x9E3779B97F4A7C15#64 := by
  rw [prngSeed_eq, if_pos ((keyFold_eq_zero_iff k).mpr h)]

theorem prngSeed_of_halves_ne {k : Key} (h : k.extractLsb' 0 64 ≠ k.extractLsb' 64 64) : prngSeed k = keyFold k := by
  rw [prngSeed_eq, if_neg (mt (keyFold_eq_zero_iff k).mp h)]

/-- The seed is never the fixed point of the generator. -/
theorem prngSeed_ne_zero (k : Key) : prngSeed k ≠ 0#64 := by
  rw [prngSeed_eq]
  split
  next => decide
  next h => exact h

/-- The two tables depend on the key through its seed only (R74). -/
theorem sboxGenWith_eq_of_seed_eq {σ : Type} (g : Prng σ) (n : Nat) {k k' : Key} (h : g.seed k = g.seed k') :
    sboxGenWith g n k = sboxGenWith g n k' := by
  have hfst : (sboxGenWith g n k).1 = (sboxGenWith g n k').1 := by rw [sboxGenWith_fst, sboxGenWith_fst, h]
  exact Prod.ext hfst (by rw [sboxGenWith_snd, sboxGenWith_snd, hfst])

theorem sboxGen_eq_of_keyFold_eq {k k' : Key} (h : keyFold k = keyFold k') : sboxGen k = sboxGen k' := by
  have hseed : prngSeed k = prngSeed k' := by rw [prngSeed_eq, prngSeed_eq, h]
  rw [sboxGen_eq, sboxGen_eq]
  exact sboxGenWith_eq_of_seed_eq xs64 _ hseed

/-- Settles O18: the two cases of the seed, and the tables as functions of the fold. -/
theorem seedIsTheFold : Obligations.SeedIsTheFold :=
  ⟨fun _ => ⟨prngSeed_of_halves_eq, prngSeed_of_halves_ne⟩, prngSeed_ne_zero,
    fun _ _ h => sboxGen_eq_of_keyFold_eq h, opSeed_prng⟩

/-! ### The step (R69) -/

/-- A shift by at least one place fixes no word but 0: shifting `w` times gives the word back and clears it. -/
theorem eq_zero_of_shift_eq_self {w k : Nat} (hk : 0 < k) {shift : BitVec w → Nat → BitVec w}
    (hzero : ∀ x, shift x 0 = x) (hadd : ∀ x m n, shift x (m + n) = shift (shift x m) n)
    (hclear : ∀ x n, w ≤ n → shift x n = 0#w) {x : BitVec w} (h : shift x k = x) : x = 0#w := by
  have fixed : ∀ n, shift x (k * n) = x := fun n => by
    induction n with
    | zero => exact hzero x
    | succ n ih => rw [Nat.mul_succ, hadd, ih, h]
  exact (fixed w).symm.trans (hclear x _ (Nat.le_mul_of_pos_left w hk))

/-- XOR with a linear image that fixes no word but 0 loses nothing. -/
theorem injective_xor_self {w : Nat} {f : BitVec w → BitVec w} (hlin : ∀ x y, f (x ^^^ y) = f x ^^^ f y)
    (hfix : ∀ x, f x = x → x = 0#w) : Function.Injective fun x => x ^^^ f x := by
  intro x y (h : x ^^^ f x = y ^^^ f y)
  have hzero : f (x ^^^ y) ^^^ (x ^^^ y) = 0#w := by
    calc f (x ^^^ y) ^^^ (x ^^^ y) = (x ^^^ f x) ^^^ (y ^^^ f y) := by rw [hlin]; ac_rfl
      _ = 0#w := BitVec.xor_eq_zero_iff.mpr h
  exact BitVec.xor_eq_zero_iff.mp (hfix _ (BitVec.xor_eq_zero_iff.mp hzero))

theorem injective_xor_shiftLeft {w k : Nat} (hk : 0 < k) : Function.Injective fun x : BitVec w => x ^^^ (x <<< k) :=
  injective_xor_self (fun x y => BitVec.shiftLeft_xor_distrib x y k) fun _ =>
    eq_zero_of_shift_eq_self hk BitVec.shiftLeft_zero BitVec.shiftLeft_add fun _ _ => BitVec.shiftLeft_eq_zero

theorem injective_xor_ushiftRight {w k : Nat} (hk : 0 < k) : Function.Injective fun x : BitVec w => x ^^^ (x >>> k) :=
  injective_xor_self (fun x y => BitVec.ushiftRight_xor_distrib x y k) fun _ =>
    eq_zero_of_shift_eq_self hk BitVec.ushiftRight_zero BitVec.shiftRight_add fun _ _ => BitVec.ushiftRight_eq_zero

/-- `Step` is the composition of its three lines. -/
theorem prngStep_injective : Function.Injective prngStep :=
  (injective_xor_shiftLeft (k := 17) (by decide)).comp
    ((injective_xor_ushiftRight (k := 7) (by decide)).comp (injective_xor_shiftLeft (k := 13) (by decide)))

theorem prngStep_zero : prngStep 0#64 = 0#64 := by decide

/-- Settles O19: an injective map of a finite type is a bijection, and 0 has no other preimage than itself. -/
theorem generatorStepBijective : Obligations.GeneratorStepBijective :=
  ⟨Finite.injective_iff_bijective.mp prngStep_injective, prngStep_zero,
    fun _ hx h => hx (prngStep_injective (h.trans prngStep_zero.symm))⟩

/-- Settles O20: each example is evaluated. -/
theorem generatorExamples : Obligations.GeneratorExamples := by
  unfold Obligations.GeneratorExamples
  decide

end Sys2Proof
end

section
/-! The tables (spec/42_sbox_generator.md R71 to R76): the identity fill, one swap, the inverse table, and what a
`KEY` leaves. -/

namespace Sys2Proof

open Sys2Proof.Machine

theorem memRead_sbInit (t : Memory) (b : Byte) : memRead (sbInit t) b = some b := by
  rw [sbInit_eq, memRead_fill, if_pos (mem_byteValues b)]

/-- Settles O21: the fill reaches every cell, and `SBINIT` writes no other architectural field. -/
theorem identityFill : Obligations.IdentityFill := fun s =>
  ⟨fun b => by rw [opSbinit_sbox, memRead_sbInit], opSbinit_invsbox s, opSbinit_rk s, opSbinit_keyValid s⟩

/-! ### The swap loop (R72) -/

theorem memRead_swapCells_eq_ite {t : Memory} {i j vi vj : Byte} (hi : memRead t i = some vi)
    (hj : memRead t j = some vj) (b : Byte) :
    memRead (swapCells t i j) b = if b = i then some vj else if b = j then some vi else memRead t b := by
  rw [memRead_swapCells hi hj, Equiv.swap_apply_def, apply_ite (memRead t), apply_ite (memRead t), hi, hj]

/-- A swap of a cell with itself is a no-op. -/
theorem memRead_swapCells_self {t : Memory} {i vi : Byte} (hi : memRead t i = some vi) (b : Byte) :
    memRead (swapCells t i i) b = memRead t b := by
  rw [memRead_swapCells hi hi, Equiv.swap_self, Equiv.refl_apply]

theorem nswaps_eq : Config.nswaps = 65000 := by
  unfold Config.nswaps
  rfl

/-- `SBSWAP` writes what the swap loop makes of `PRNG` and `SBOX`. -/
theorem opSbswap_eq_swapLoop (s : State) :
    ((opSbswap s).prng, (opSbswap s).sbox) = swapLoop xs64 65000 s.prng s.sbox := by
  rw [opSbswap_prng, opSbswap_sbox, nswaps_eq]

/-- Settles O22: the cells after one swap, and the two equations of the swap loop. -/
theorem swapIteration : Obligations.SwapIteration :=
  ⟨fun _ _ _ _ _ hi hj b => memRead_swapCells_eq_ite hi hj b, fun _ _ _ hi b => memRead_swapCells_self hi b,
    fun _ _ _ => rfl, fun _ _ => rfl, opSbswap_eq_swapLoop⟩

/-- Settles O23: the identity is a bijection, every swap keeps it one, and `SBINV` inverts a bijection. -/
theorem tablesInverseForEveryGenerator : Obligations.TablesInverseForEveryGenerator := fun σ g n k => by
  have hbij : (sboxGenWith g n k).1.Bijective := by
    rw [sboxGenWith_fst]
    exact swapLoop_bijective g n _ (sbInit_bijective [])
  rw [sboxGenWith_snd]
  exact sbInv_inverse hbij []

/-! ### The tables and round keys of a key (R76) -/

/-- A `KEY` of 16 bytes completes in every state and leaves the tables and round keys of its payload (R116). -/
theorem exec_key_holdsInstance {p : List Byte} (hp : p.length = 16) (s : State) :
    ∃ t, exec (.key p) s = .next t ∧ HoldsInstance t (pack p) := by
  rcases exec_key_cases p s with ⟨hlen, -⟩ | ⟨-, t, ht, -, -, -, hholds, -, -⟩
  · exact absurd hp hlen
  · exact ⟨t, ht, hholds⟩

/-- Two engines that hold the tables and round keys of one key agree on them. -/
theorem eq_of_holdsInstance {s t : State} {k : Key} (hs : HoldsInstance s k) (ht : HoldsInstance t k) :
    s.rk = t.rk ∧ SameCells s.sbox t.sbox ∧ SameCells s.invsbox t.invsbox := by
  obtain ⟨hrk, hsbox, hinv⟩ := hs
  obtain ⟨hrk', hsbox', hinv'⟩ := ht
  exact ⟨hrk.trans hrk'.symm, fun b => (hsbox b).trans (hsbox' b).symm, fun b => (hinv b).trans (hinv' b).symm⟩

/-- Settles O41: all three `KEY`s leave the tables and round keys of the one payload. -/
theorem keyDeterminesInstance : Obligations.KeyDeterminesInstance := fun p s s' hp => by
  obtain ⟨t, ht, hholds⟩ := exec_key_holdsInstance hp s
  obtain ⟨t', ht', hholds'⟩ := exec_key_holdsInstance hp s'
  obtain ⟨u, hu, hholdsAgain⟩ := exec_key_holdsInstance hp t
  obtain ⟨hrk, hsbox, hinv⟩ := eq_of_holdsInstance hholds hholds'
  exact ⟨t, t', u, ht, ht', hu, hrk, hsbox, hinv, eq_of_holdsInstance hholdsAgain hholds⟩

end Sys2Proof
end

section
/-! The permutation of the lanes and the two substitution layers (spec/43_permutation_substitution.md R80 to R84). A
layer's answer is fixed by an equation per lane, and so the layers undo each other lane by lane. -/

namespace Sys2Proof

open Sys2Proof.Machine

/-! ### `PERM` and `INVPERM` (R80, R81) -/

@[simp] theorem invPermRead_permRead : ∀ i : Lane, invPermRead (permRead i) = i := by decide

@[simp] theorem permRead_invPermRead : ∀ d : Lane, permRead (invPermRead d) = d := by decide

/-- Settles O24: sixteen lanes, each looked up in the tables. -/
theorem permutationTables : Obligations.PermutationTables :=
  ⟨by decide, by decide, invPermRead_permRead, permRead_invPermRead, by decide, by decide⟩

/-! ### The answer of a layer (R82, R83) -/

/-- A pass over all lanes whose placement reaches every lane once answers the one block that holds, at the lane each
source lane is placed at, the table's value for its byte. -/
theorem substLanes_eq_some_iff {place : Lane → Lane} (hinj : Function.Injective place) {t : Memory} {x y : Block} :
    substLanes t place x lanes 0#128 = some y ↔ ∀ i, memRead t (byteOf x i) = some (byteOf y (place i)) := by
  refine ⟨fun h i => substLanes_placed hinj lanes_nodup h (mem_lanes i), fun h => ?_⟩
  obtain ⟨z, hz⟩ := substLanes_isSome lanes 0#128 fun i _ => ⟨_, h i⟩
  have hzy : z = y := block_ext fun d => by
    obtain ⟨i, rfl⟩ := Finite.surjective_of_injective hinj d
    exact Option.some.inj ((substLanes_placed hinj lanes_nodup hz (mem_lanes i)).symm.trans (h i))
  rw [hz, hzy]

theorem pSub_eq_some_iff {t : Memory} {x y : Block} :
    pSub x t = some y ↔ ∀ i, memRead t (byteOf x i) = some (byteOf y (permRead i)) :=
  substLanes_eq_some_iff permRead_injective

theorem ipSub_eq_some_iff {t : Memory} {x y : Block} :
    ipSub x t = some y ↔ ∀ i, memRead t (byteOf x i) = some (byteOf y (invPermRead i)) :=
  substLanes_eq_some_iff invPermRead_injective

/-- Settles O25: the answer's equation for lane i, and the same equation for lane `INVPERM[d]`. -/
theorem pSubLanes : Obligations.PSubLanes := fun x t hfull => by
  obtain ⟨y, hy⟩ := pSub_isSome hfull x
  have hlane := pSub_eq_some_iff.mp hy
  exact ⟨y, hy, fun i => (hlane i).symm, fun d => by rw [hlane, permRead_invPermRead]⟩

/-- Settles O26: the answer's equation for lane i, and the same equation for lane `PERM[d]`. -/
theorem ipSubLanes : Obligations.IPSubLanes := fun x t hfull => by
  obtain ⟨y, hy⟩ := ipSub_isSome hfull x
  have hlane := ipSub_eq_some_iff.mp hy
  exact ⟨y, hy, fun i => (hlane i).symm, fun d => by rw [hlane, invPermRead_permRead]⟩

/-! ### A matching pair of tables (R75, R84) -/

section

variable {fwd inv : Memory} (h : InverseTables fwd inv)

include h

/-- Of a matching pair each table is the other read backwards. -/
theorem InverseTables.memRead_eq_some_iff (b v : Byte) : memRead fwd b = some v ↔ memRead inv v = some b := by
  obtain ⟨hfwd, hinv⟩ := h
  constructor
  · intro hb
    obtain ⟨w, hw, hwb⟩ := hfwd b
    obtain rfl : w = v := Option.some.inj (hw.symm.trans hb)
    exact hwb
  · intro hv
    obtain ⟨c, hc, hcv⟩ := hinv v
    obtain rfl : c = b := Option.some.inj (hc.symm.trans hv)
    exact hcv

theorem InverseTables.tableFull_fwd : tableFull fwd = true :=
  (tableFull_iff fwd).mpr fun b => (h.1 b).imp fun _ hv => hv.1

theorem InverseTables.tableFull_inv : tableFull inv = true :=
  (tableFull_iff inv).mpr fun v => (h.2 v).imp fun _ hb => hb.1

/-- With a matching pair the inverse layer is the forward layer read backwards. -/
theorem InverseTables.pSub_eq_some_iff_ipSub (x y : Block) : pSub x fwd = some y ↔ ipSub y inv = some x :=
  calc pSub x fwd = some y
    _ ↔ ∀ i, memRead fwd (byteOf x i) = some (byteOf y (permRead i)) := pSub_eq_some_iff
    _ ↔ ∀ i, memRead inv (byteOf y (permRead i)) = some (byteOf x i) :=
      forall_congr' fun _ => h.memRead_eq_some_iff _ _
    _ ↔ ∀ d, memRead inv (byteOf y d) = some (byteOf x (invPermRead d)) :=
      ⟨fun hy d => by simpa using hy (invPermRead d), fun hy i => by simpa using hy (permRead i)⟩
    _ ↔ ipSub y inv = some x := ipSub_eq_some_iff.symm

end

/-- Settles O27: each layer completes on its full table, and the other is it read backwards. -/
theorem layersInverse : Obligations.LayersInverse := fun _ _ h x => by
  obtain ⟨y, hy⟩ := pSub_isSome h.tableFull_fwd x
  obtain ⟨z, hz⟩ := ipSub_isSome h.tableFull_inv x
  exact ⟨⟨y, hy, (h.pSub_eq_some_iff_ipSub x y).mp hy⟩, ⟨z, hz, (h.pSub_eq_some_iff_ipSub z x).mpr hz⟩⟩

end Sys2Proof
end

section
/-! The commands `PSUB` and `IPSUB` (spec/46_commands.md R115, R120, R121): the three answers of a block command, each
with its condition, and what two of them one after the other answer. -/

namespace Sys2Proof

open Sys2Proof.Machine

/-! ### The answers of a block command (R115) -/

section

variable {i : Instr} (hi : isBlockCommand i = true) {s : State}

include hi

/-- Where `blockAnswer` gives an answer, the command completes with it and keeps the architectural state. -/
theorem exec_block_of_blockAnswer {status : Status} {data : Option Block} (h : blockAnswer i s = some (status, data)) :
    ∃ t, exec i s = .next t ∧ AnswersWith s t status data ∧ SameInstance s t := by
  rcases exec_block_answers hi s with ⟨a, t, ha, ht, hanswers, hsame, -⟩ | ⟨hnone, -⟩
  · obtain rfl : a = (status, data) := Option.some.inj (ha.symm.trans h)
    exact ⟨t, ht, hanswers, hsame⟩
  · cases hnone.symm.trans h

theorem exec_block_invalidBlockLength (hlen : i.payload.length ≠ 16) :
    ∃ t, exec i s = .next t ∧ AnswersWith s t .invalidBlockLength none ∧ SameInstance s t :=
  exec_block_of_blockAnswer hi (if_pos hlen)

theorem exec_block_noKey (hlen : i.payload.length = 16) (hneed : needsKey i = true) (hkey : s.keyValid = false) :
    ∃ t, exec i s = .next t ∧ AnswersWith s t .noKey none ∧ SameInstance s t :=
  exec_block_of_blockAnswer hi (by simp [blockAnswer, hlen, State.lacksKey, hneed, hkey])

theorem exec_block_ok (hlen : i.payload.length = 16) (hkey : needsKey i = true → s.keyValid = true) {y : Block}
    (hy : blockResult i s = some y) :
    ∃ t, exec i s = .next t ∧ AnswersWith s t .ok (some y) ∧ SameInstance s t :=
  exec_block_of_blockAnswer hi (by simp [blockAnswer, hlen, (lacksKey_eq_false_iff s _).mpr hkey, hy])

end

/-! ### One block command after another (R21) -/

/-- The block a command computes depends on its operand and the architectural state only. -/
theorem blockResult_of_sameInstance {s t : State} (h : SameInstance s t) (i : Instr) :
    blockResult i t = blockResult i s := by
  obtain ⟨-, hrk, hsbox, hinv⟩ := h
  have hread : t.readRk = s.readRk := funext fun r => by simp only [State.readRk, hrk]
  cases i with
  | key p => rfl
  | enc p => simp only [blockResult, hread, hsbox]
  | dec p => simp only [blockResult, hread, hinv]
  | diff p => rfl
  | psub p => simp only [blockResult, hsbox]
  | ipsub p => simp only [blockResult, hinv]

/-- Two block commands one after the other: the second answers the block it computes in the state before the first. -/
theorem exec_block_ok_then {i j : Instr} (hi : isBlockCommand i = true) (hj : isBlockCommand j = true) {s : State}
    (hkey : s.keyValid = true) (hilen : i.payload.length = 16) (hjlen : j.payload.length = 16) {y z : Block}
    (hy : blockResult i s = some y) (hz : blockResult j s = some z) :
    ∃ t u, exec i s = .next t ∧ AnswersWith s t .ok (some y) ∧ exec j t = .next u ∧ AnswersWith t u .ok (some z) := by
  obtain ⟨t, ht, hat, hsame⟩ := exec_block_ok hi hilen (fun _ => hkey) hy
  have hkey' : t.keyValid = true := hsame.1.trans hkey
  obtain ⟨u, hu, hau, -⟩ :=
    exec_block_ok hj hjlen (fun _ => hkey') ((blockResult_of_sameInstance hsame j).trans hz)
  exact ⟨t, u, ht, hat, hu, hau⟩

/-! ### `PSUB` and `IPSUB` (R120, R121) -/

/-- Settles O37: the three answers of a block command; the block is the forward layer's, known by its lanes. -/
theorem psubCommand : Obligations.PsubCommand := fun p s => by
  refine ⟨rfl, exec_block_invalidBlockLength (i := .psub p) rfl,
    fun hlen => exec_block_noKey (i := .psub p) rfl hlen rfl, fun hlen hkey hfull => ?_⟩
  obtain ⟨y, hy⟩ := pSub_isSome hfull (pack p)
  obtain ⟨t, ht, hat, hsame⟩ := exec_block_ok (i := .psub p) rfl hlen (fun _ => hkey) hy
  exact ⟨y, t, ht, hat, hsame, fun i => (pSub_eq_some_iff.mp hy i).symm⟩

/-- With a matching pair of tables `IPSUB` of a `PSUB` answer answers the original block (R121). -/
theorem exec_psub_ipsub {p : List Byte} {s : State} (hlen : p.length = 16) (hkey : s.keyValid = true)
    (h : InverseTables s.sbox s.invsbox) :
    ∃ y t u, exec (.psub p) s = .next t ∧ AnswersWith s t .ok (some y) ∧
      exec (.ipsub (unpack y)) t = .next u ∧ AnswersWith t u .ok (some (pack p)) := by
  obtain ⟨⟨y, hy, hback⟩, -⟩ := layersInverse _ _ h (pack p)
  have hresult : blockResult (.ipsub (unpack y)) s = some (pack p) := by rw [blockResult, pack_unpack, hback]
  exact ⟨y, exec_block_ok_then (i := .psub p) (j := .ipsub (unpack y)) rfl rfl hkey hlen rfl hy hresult⟩

/-- With a matching pair of tables `PSUB` of an `IPSUB` answer answers the original block (R121). -/
theorem exec_ipsub_psub {p : List Byte} {s : State} (hlen : p.length = 16) (hkey : s.keyValid = true)
    (h : InverseTables s.sbox s.invsbox) :
    ∃ y t u, exec (.ipsub p) s = .next t ∧ AnswersWith s t .ok (some y) ∧
      exec (.psub (unpack y)) t = .next u ∧ AnswersWith t u .ok (some (pack p)) := by
  obtain ⟨-, z, hz, hback⟩ := layersInverse _ _ h (pack p)
  have hresult : blockResult (.psub (unpack z)) s = some (pack p) := by rw [blockResult, pack_unpack, hback]
  exact ⟨z, exec_block_ok_then (i := .ipsub p) (j := .psub (unpack z)) rfl rfl hkey hlen rfl hz hresult⟩

/-- Settles O38: the three answers of a block command, then the two round trips. -/
theorem ipsubCommand : Obligations.IpsubCommand := fun p s => by
  refine ⟨rfl, exec_block_invalidBlockLength (i := .ipsub p) rfl,
    fun hlen => exec_block_noKey (i := .ipsub p) rfl hlen rfl, fun hlen hkey hfull => ?_,
    fun hlen hkey hpair => ⟨exec_psub_ipsub hlen hkey hpair, exec_ipsub_psub hlen hkey hpair⟩⟩
  obtain ⟨y, hy⟩ := ipSub_isSome hfull (pack p)
  obtain ⟨t, ht, hat, hsame⟩ := exec_block_ok (i := .ipsub p) rfl hlen (fun _ => hkey) hy
  exact ⟨y, t, ht, hat, hsame, fun i => (ipSub_eq_some_iff.mp hy i).symm⟩

end Sys2Proof
end

section
/-! The diffusion layer (spec/44_diffusion.md R90 to R96): the masks, a group swap as the flip of one index bit, and
`Diff` as the XOR of an odd number of commuting involutions. -/

namespace Sys2Proof

open Sys2Proof.Machine

/-! ### The masks (R90, R91) -/

/-- The seven constants of R90, bit by bit. -/
theorem mask_getLsbD (g : Gran) : ∀ p < 128, (mask g).getLsbD p = decide (p / g.width % 2 = 0) := by
  cases g <;> decide

theorem mask_shiftLeft (g : Gran) : mask g <<< g.width = ~~~mask g := by
  cases g <;> decide

theorem not_mask_ushiftRight (g : Gran) : ~~~mask g >>> g.width = mask g := by
  cases g <;> decide

theorem countP_mask (g : Gran) : (List.range 128).countP (fun p => (mask g).getLsbD p) = 64 := by
  cases g <;> decide

/-- The complement has the other 64 of the 128 bits. -/
theorem countP_not_mask (g : Gran) : (List.range 128).countP (fun p => (~~~mask g).getLsbD p) = 64 := by
  have hnot : (List.range 128).countP (fun p => (~~~mask g).getLsbD p) =
      (List.range 128).countP (fun p => decide ¬(mask g).getLsbD p = true) :=
    List.countP_congr fun p hp => by simp [List.mem_range.mp hp]
  have htotal := List.length_eq_countP_add_countP (fun p => (mask g).getLsbD p) (l := List.range 128)
  rw [List.length_range, countP_mask, ← hnot] at htotal
  omega

/-- Settles O28: the bits of the seven constants, and the laws of a word and its complement. -/
theorem masksPartition : Obligations.MasksPartition := fun g =>
  ⟨mask_getLsbD g, BitVec.and_not_self _, BitVec.or_not_self _, countP_mask g, countP_not_mask g, mask_shiftLeft g,
    not_mask_ushiftRight g⟩

/-! ### The flip of one index bit -/

theorem Gran.width_eq_two_pow (g : Gran) : ∃ k < 7, g.width = 2 ^ k := by
  cases g <;> decide

theorem xor_two_pow_div (p k : Nat) : (p ^^^ 2 ^ k) / 2 ^ k = p / 2 ^ k ^^^ 1 := by
  rw [Nat.xor_div_two_pow, Nat.div_self (Nat.two_pow_pos k)]

/-- Where bit `k` is 0, flipping it adds its weight: the digits below stay and the quotient goes up by 1. -/
theorem xor_two_pow_of_even {p k : Nat} (h : Even (p / 2 ^ k)) : p ^^^ 2 ^ k = p + 2 ^ k := by
  have hmod : (p ^^^ 2 ^ k) % 2 ^ k = p % 2 ^ k := by rw [Nat.xor_mod_two_pow, Nat.mod_self, Nat.xor_zero]
  calc p ^^^ 2 ^ k
    _ = 2 ^ k * (p / 2 ^ k + 1) + p % 2 ^ k := by
      rw [← Nat.xor_one_of_even h, ← xor_two_pow_div, ← hmod, Nat.div_add_mod]
    _ = p + 2 ^ k := by rw [Nat.mul_succ, Nat.add_right_comm, Nat.div_add_mod]

/-- Where bit `k` is 1, flipping it takes its weight away, for flipping it back adds it. -/
theorem xor_two_pow_add_of_odd {p k : Nat} (h : Odd (p / 2 ^ k)) : (p ^^^ 2 ^ k) + 2 ^ k = p := by
  have heven : Even ((p ^^^ 2 ^ k) / 2 ^ k) := by
    rw [xor_two_pow_div, Nat.xor_one_of_odd h]
    exact h.tsub_odd odd_one
  rw [← xor_two_pow_of_even heven, Nat.xor_xor_cancel_right]

theorem xor_width_of_even {g : Gran} {p : Nat} (h : p / g.width % 2 = 0) : p ^^^ g.width = p + g.width := by
  obtain ⟨k, -, hk⟩ := g.width_eq_two_pow
  rw [hk] at h ⊢
  exact xor_two_pow_of_even (Nat.even_iff.mpr h)

theorem xor_width_add_of_odd {g : Gran} {p : Nat} (h : p / g.width % 2 = 1) : (p ^^^ g.width) + g.width = p := by
  obtain ⟨k, -, hk⟩ := g.width_eq_two_pow
  rw [hk] at h ⊢
  exact xor_two_pow_add_of_odd (Nat.odd_iff.mpr h)

theorem xor_width_lt {p : Nat} (hp : p < 128) (g : Gran) : p ^^^ g.width < 128 := by
  obtain ⟨k, hk, hw⟩ := g.width_eq_two_pow
  rw [hw]
  exact Nat.xor_lt_two_pow (n := 7) hp (Nat.pow_lt_pow_right (by decide) hk)

/-! ### One group swap (R92) -/

/-- R91 lets the masks be taken after the shifts: odd positions get the group below, even ones the group above. -/
theorem swapG_eq (g : Gran) (x : Block) :
    swapG g x = (x <<< g.width &&& ~~~mask g) ||| (x >>> g.width &&& mask g) := by
  rw [swapG, BitVec.shiftLeft_and_distrib, BitVec.ushiftRight_and_distrib, mask_shiftLeft, not_mask_ushiftRight]

theorem swapG_getLsbD (g : Gran) (x : Block) {p : Nat} (hp : p < 128) :
    (swapG g x).getLsbD p = x.getLsbD (p ^^^ g.width) := by
  simp only [swapG_eq, BitVec.getLsbD_or, BitVec.getLsbD_and, BitVec.getLsbD_shiftLeft, BitVec.getLsbD_ushiftRight,
    BitVec.getLsbD_not, mask_getLsbD g p hp]
  rcases Nat.mod_two_eq_zero_or_one (p / g.width) with h | h
  · rw [xor_width_of_even h, Nat.add_comm]
    simp [h]
  · have hadd := xor_width_add_of_odd h
    have hle : g.width ≤ p := hadd ▸ Nat.le_add_left _ _
    rw [Nat.eq_sub_of_add_eq hadd]
    simp [h, hp, hle]

theorem swapG_swapG_getLsbD (g h : Gran) (x : Block) {p : Nat} (hp : p < 128) :
    (swapG g (swapG h x)).getLsbD p = x.getLsbD (p ^^^ g.width ^^^ h.width) := by
  rw [swapG_getLsbD g _ hp, swapG_getLsbD h x (xor_width_lt hp g)]

@[simp] theorem swapG_swapG_self (g : Gran) (x : Block) : swapG g (swapG g x) = x :=
  block_eq_of_bits fun p hp => by rw [swapG_swapG_getLsbD g g x hp, Nat.xor_xor_cancel_right]

theorem swapG_comm (g h : Gran) (x : Block) : swapG g (swapG h x) = swapG h (swapG g x) :=
  block_eq_of_bits fun p hp => by
    rw [swapG_swapG_getLsbD g h x hp, swapG_swapG_getLsbD h g x hp, Nat.xor_right_comm]

@[simp] theorem swapG_xor (g : Gran) (x y : Block) : swapG g (x ^^^ y) = swapG g x ^^^ swapG g y :=
  block_eq_of_bits fun p hp => by simp only [swapG_getLsbD g _ hp, BitVec.getLsbD_xor]

@[simp] theorem swapG_zero (g : Gran) : swapG g 0#128 = 0#128 :=
  block_eq_of_bits fun p hp => by rw [swapG_getLsbD g _ hp, BitVec.getLsbD_zero, BitVec.getLsbD_zero]

/-- Settles O29: the bits of a group swap, and what they say of two in a row. -/
theorem groupSwapBits : Obligations.GroupSwapBits :=
  ⟨fun g x _ hp => swapG_getLsbD g x hp, swapG_swapG_self, swapG_comm⟩

/-! ### The XOR of group swaps (R93) -/

@[simp] theorem diffWith_nil (x : Block) : diffWith [] x = 0#128 := rfl

theorem diffWith_concat (terms : List Gran) (g : Gran) (x : Block) :
    diffWith (terms ++ [g]) x = diffWith terms x ^^^ swapG g x := by
  rw [diffWith, List.foldl_concat, ← diffWith]

theorem diffWith_xor (terms : List Gran) (x y : Block) :
    diffWith terms (x ^^^ y) = diffWith terms x ^^^ diffWith terms y := by
  induction terms using List.reverseRecOn with
  | nil => exact BitVec.xor_zero.symm
  | append_singleton terms g ih =>
    simp only [diffWith_concat, ih, swapG_xor]
    ac_rfl

theorem diffWith_zero (terms : List Gran) : diffWith terms 0#128 = 0#128 := by
  induction terms using List.reverseRecOn with
  | nil => rfl
  | append_singleton terms g ih => rw [diffWith_concat, ih, swapG_zero, BitVec.xor_zero]

theorem swapG_diffWith (g : Gran) (terms : List Gran) (x : Block) :
    swapG g (diffWith terms x) = diffWith terms (swapG g x) := by
  induction terms using List.reverseRecOn with
  | nil => exact swapG_zero g
  | append_singleton terms h ih => rw [diffWith_concat, diffWith_concat, swapG_xor, ih, swapG_comm]

/-- One more group swap adds its own square, the identity, for the two mixed products are equal and cancel (R95). -/
theorem diffWith_diffWith_concat (terms : List Gran) (g : Gran) (x : Block) :
    diffWith (terms ++ [g]) (diffWith (terms ++ [g]) x) = diffWith terms (diffWith terms x) ^^^ x := by
  calc diffWith (terms ++ [g]) (diffWith (terms ++ [g]) x)
    _ = (diffWith terms (diffWith terms x) ^^^ diffWith terms (swapG g x)) ^^^
          (diffWith terms (swapG g x) ^^^ x) := by
      simp only [diffWith_concat, diffWith_xor, swapG_swapG_self, swapG_diffWith]
    _ = diffWith terms (diffWith terms x) ^^^ x := by
      rw [BitVec.xor_assoc, ← BitVec.xor_assoc (diffWith terms (swapG g x)), BitVec.xor_self, BitVec.zero_xor]

/-- The square is the XOR of as many identities as there are group swaps (R95). -/
theorem diffWith_diffWith (terms : List Gran) (x : Block) :
    diffWith terms (diffWith terms x) = if terms.length % 2 = 1 then x else 0#128 := by
  induction terms using List.reverseRecOn with
  | nil => rfl
  | append_singleton terms g ih =>
    rw [diffWith_diffWith_concat, ih, List.length_append, List.length_singleton]
    rcases Nat.mod_two_eq_zero_or_one terms.length with h | h
    · rw [if_neg (by omega), if_pos (by omega), BitVec.zero_xor]
    · rw [if_pos h, if_neg (by omega), BitVec.xor_self]

/-! ### `Diff` (R93 to R96) -/

theorem diff_eq (x : Block) :
    diff x = swapG .g1 x ^^^ swapG .g2 x ^^^ swapG .g4 x ^^^ swapG .g8 x ^^^ swapG .g16 x ^^^ swapG .g32 x ^^^
      swapG .g64 x := by
  simp [diff, diffWith, Config.diffTerms]

theorem diff_involutive : Function.Involutive diff := diffWith_diffWith Config.diffTerms

/-- Settles O30: the bits of the seven group swaps. -/
theorem diffBits : Obligations.DiffBits := fun x p hp => by
  simp only [diff_eq, BitVec.getLsbD_xor, swapG_getLsbD _ x hp, Gran.width]

/-- Settles O31: the count of R95 for any list of group swaps; `Diff` has seven. -/
theorem diffSelfInverse : Obligations.DiffSelfInverse :=
  ⟨diff_involutive, diffWith_diffWith⟩

/-- Settles O32: every XOR of group swaps is linear, and an involution is a bijection. -/
theorem diffLinearBijection : Obligations.DiffLinearBijection :=
  ⟨diffWith_xor Config.diffTerms, diffWith_zero Config.diffTerms, diff_involutive.bijective⟩

end Sys2Proof
end

section
/-! The round controller (spec/45_round_controller.md R102 to R107): `Encrypt` and `Decrypt` written out round by round,
each the other read backwards on a matching pair of tables, and what `ENC` and `DEC` answer. -/

namespace Sys2Proof

open Sys2Proof.Machine

/-! ### The rounds (R102, R103) -/

theorem encryptRounds_nil_eq_some_iff {rk : BitVec 2 → Block} {t : Memory} {x c : Block} :
    encryptRounds rk t [] x = some c ↔ x = c :=
  Option.some_inj

theorem decryptRounds_nil_eq_some_iff {rk : BitVec 2 → Block} {t : Memory} {x p : Block} :
    decryptRounds rk t [] x = some p ↔ x = p :=
  Option.some_inj

theorem encryptRounds_cons_eq_some_iff {rk : BitVec 2 → Block} {t : Memory} {r : BitVec 2} {rs : List (BitVec 2)}
    {x c : Block} : encryptRounds rk t (r :: rs) x = some c ↔
      ∃ y, pSub (diff x) t = some y ∧ encryptRounds rk t rs (y ^^^ rk r) = some c := by
  cases h : pSub (diff x) t <;> simp [encryptRounds, h]

theorem decryptRounds_cons_eq_some_iff {rk : BitVec 2 → Block} {t : Memory} {r : BitVec 2} {rs : List (BitVec 2)}
    {x p : Block} : decryptRounds rk t (r :: rs) x = some p ↔
      ∃ z, ipSub (x ^^^ rk r) t = some z ∧ decryptRounds rk t rs (diff z) = some p := by
  cases h : ipSub (x ^^^ rk r) t <;> simp [decryptRounds, h]

/-- `Encrypt`, its three rounds written out (R102). -/
theorem encrypt_eq_some_iff {rk : BitVec 2 → Block} {t : Memory} {p c : Block} : encrypt p rk t = some c ↔
    ∃ y1, pSub (diff (p ^^^ rk 0#2)) t = some y1 ∧ ∃ y2, pSub (diff (y1 ^^^ rk 1#2)) t = some y2 ∧
      ∃ y3, pSub (diff (y2 ^^^ rk 2#2)) t = some y3 ∧ y3 ^^^ rk 3#2 = c := by
  simp only [encrypt, rounds_eq, encryptRounds_cons_eq_some_iff, encryptRounds_nil_eq_some_iff]

theorem decrypt_eq_some_iff_rounds {rk : BitVec 2 → Block} {t : Memory} {c p : Block} : decrypt c rk t = some p ↔
    ∃ x, decryptRounds rk t Config.rounds.reverse c = some x ∧ x ^^^ rk 0#2 = p := by
  cases h : decryptRounds rk t Config.rounds.reverse c <;> simp [decrypt, h]

/-- `Decrypt`, its three rounds written out (R103). -/
theorem decrypt_eq_some_iff {rk : BitVec 2 → Block} {t : Memory} {c p : Block} : decrypt c rk t = some p ↔
    ∃ z3, ipSub (c ^^^ rk 3#2) t = some z3 ∧ ∃ z2, ipSub (diff z3 ^^^ rk 2#2) t = some z2 ∧
      ∃ z1, ipSub (diff z2 ^^^ rk 1#2) t = some z1 ∧ diff z1 ^^^ rk 0#2 = p := by
  have hrounds : Config.rounds.reverse = [3#2, 2#2, 1#2] := rfl
  simp only [decrypt_eq_some_iff_rounds, hrounds, decryptRounds_cons_eq_some_iff, decryptRounds_nil_eq_some_iff]
  exact ⟨fun ⟨_, ⟨z3, h3, z2, h2, z1, h1, hz⟩, hp⟩ => ⟨z3, h3, z2, h2, z1, h1, hz ▸ hp⟩,
    fun ⟨z3, h3, z2, h2, z1, h1, hp⟩ => ⟨diff z1, ⟨z3, h3, z2, h2, z1, h1, rfl⟩, hp⟩⟩

/-! ### `ENC` and `DEC` (R117, R118) -/

/-- Settles O34: the three answers of a block command; the block is `Encrypt`'s, its rounds written out. -/
theorem encCommand : Obligations.EncCommand := fun p s => by
  refine ⟨rfl, exec_block_invalidBlockLength (i := .enc p) rfl,
    fun hlen => exec_block_noKey (i := .enc p) rfl hlen rfl, fun hlen hkey hfull => ?_⟩
  obtain ⟨c, hc⟩ := encrypt_isSome (pack p) s.readRk hfull
  obtain ⟨t, ht, hanswers, hsame⟩ := exec_block_ok (i := .enc p) rfl hlen (fun _ => hkey) hc
  obtain ⟨y1, h1, y2, h2, y3, h3, rfl⟩ := encrypt_eq_some_iff.mp hc
  exact ⟨y1, y2, y3, t, h1, h2, h3, ht, hanswers, hsame⟩

/-- Settles O35: the three answers of a block command; the block is `Decrypt`'s, its rounds written out. -/
theorem decCommand : Obligations.DecCommand := fun p s => by
  refine ⟨rfl, exec_block_invalidBlockLength (i := .dec p) rfl,
    fun hlen => exec_block_noKey (i := .dec p) rfl hlen rfl, fun hlen hkey hfull => ?_⟩
  obtain ⟨x, hx⟩ := decrypt_isSome (pack p) s.readRk hfull
  obtain ⟨t, ht, hanswers, hsame⟩ := exec_block_ok (i := .dec p) rfl hlen (fun _ => hkey) hx
  obtain ⟨z3, h3, z2, h2, z1, h1, rfl⟩ := decrypt_eq_some_iff.mp hx
  exact ⟨z3, z2, z1, t, h3, h2, h1, ht, hanswers, hsame⟩

/-! ### One block command after another (R107) -/

/-- Settles O40: the first command keeps the architectural state, and the second's response depends on no other. -/
theorem blockCommandsIndependent : Obligations.BlockCommandsIndependent := fun i j s t u hi hj ht hu => by
  obtain ⟨hsame, -⟩ := blockCommandFrame i s t hi ht
  exact rspPending_of_blockResult_eq hj hsame.1.symm (blockResult_of_sameInstance hsame j).symm hu

/-! ### The round trip (R104) -/

theorem decryptRounds_concat_eq_some_iff {rk : BitVec 2 → Block} {t : Memory} {r : BitVec 2} {rs : List (BitVec 2)}
    {x p : Block} : decryptRounds rk t (rs ++ [r]) x = some p ↔
      ∃ y, decryptRounds rk t rs x = some y ∧ ∃ z, ipSub (y ^^^ rk r) t = some z ∧ diff z = p := by
  induction rs generalizing x with
  | nil => simp only [List.nil_append, decryptRounds_cons_eq_some_iff, decryptRounds_nil_eq_some_iff, exists_eq_left']
  | cons q rs ih =>
    simp only [List.cons_append, decryptRounds_cons_eq_some_iff, ih]
    exact ⟨fun ⟨w, hw, y, hy, h⟩ => ⟨y, ⟨w, hw, hy⟩, h⟩, fun ⟨y, ⟨w, hw, hy⟩, h⟩ => ⟨w, hw, y, hy, h⟩⟩

/-- On a matching pair of tables the rounds of `Decrypt` are those of `Encrypt` backwards: key addition and diffusion
are their own inverses, and the two layers are each other's. -/
theorem InverseTables.encryptRounds_eq_some_iff {fwd inv : Memory} (h : InverseTables fwd inv)
    (rk : BitVec 2 → Block) (rs : List (BitVec 2)) (x c : Block) :
    encryptRounds rk fwd rs x = some c ↔ decryptRounds rk inv rs.reverse c = some x := by
  induction rs generalizing x with
  | nil => exact encryptRounds_nil_eq_some_iff.trans (eq_comm.trans decryptRounds_nil_eq_some_iff.symm)
  | cons r rs ih =>
    simp only [List.reverse_cons, encryptRounds_cons_eq_some_iff, decryptRounds_concat_eq_some_iff, ih,
      h.pSub_eq_some_iff_ipSub]
    constructor
    · rintro ⟨y, hy, hc⟩
      exact ⟨y ^^^ rk r, hc, diff x, by rwa [xor_cancel_right], diff_involutive x⟩
    · rintro ⟨y, hc, z, hz, rfl⟩
      exact ⟨y ^^^ rk r, by rwa [diff_involutive], by rwa [xor_cancel_right]⟩

theorem InverseTables.encrypt_eq_some_iff_decrypt {fwd inv : Memory} (h : InverseTables fwd inv)
    (rk : BitVec 2 → Block) (p c : Block) : encrypt p rk fwd = some c ↔ decrypt c rk inv = some p := by
  rw [encrypt, h.encryptRounds_eq_some_iff, decrypt_eq_some_iff_rounds]
  constructor
  · exact fun hc => ⟨_, hc, by rw [xor_cancel_right]⟩
  · rintro ⟨x, hx, rfl⟩
    rwa [xor_cancel_right]

theorem InverseTables.of_sameCells {t u fwd inv : Memory} (h : InverseTables fwd inv) (hfwd : SameCells t fwd)
    (hinv : SameCells u inv) : InverseTables t u := by
  simpa only [InverseTables, hfwd _, hinv _] using h

/-- On two engines of one key the `Decrypt` of the second undoes the `Encrypt` of the first, and is undone by it. -/
theorem encrypt_eq_some_iff_decrypt_of_holdsInstance {s s' : State} {k : Key} (hs : HoldsInstance s k)
    (hs' : HoldsInstance s' k) (p c : Block) :
    encrypt p s.readRk s.sbox = some c ↔ decrypt c s'.readRk s'.invsbox = some p := by
  obtain ⟨hrk, hsbox, -⟩ := hs
  obtain ⟨hrk', -, hinv⟩ := hs'
  have hread : s.readRk = s'.readRk := funext fun r => by simp only [State.readRk, hrk, hrk']
  rw [hread]
  exact ((sboxGen_inverse k).of_sameCells hsbox hinv).encrypt_eq_some_iff_decrypt _ p c

/-- A keyed block command on each of two engines: each answers the block it computes on its own. -/
theorem exec_block_ok_on_each {i j : Instr} (hi : isBlockCommand i = true) (hj : isBlockCommand j = true)
    {s s' : State} (hkey : s.keyValid = true) (hkey' : s'.keyValid = true) (hilen : i.payload.length = 16)
    (hjlen : j.payload.length = 16) {y z : Block} (hy : blockResult i s = some y) (hz : blockResult j s' = some z) :
    ∃ t u, exec i s = .next t ∧ AnswersWith s t .ok (some y) ∧ exec j s' = .next u ∧
      AnswersWith s' u .ok (some z) := by
  obtain ⟨t, ht, hat, -⟩ := exec_block_ok hi hilen (fun _ => hkey) hy
  obtain ⟨u, hu, hau, -⟩ := exec_block_ok hj hjlen (fun _ => hkey') hz
  exact ⟨t, u, ht, hat, hu, hau⟩

/-- Settles O44: each cipher completes on the first engine's full table, and the other one takes its block back on the
second engine. -/
theorem encryptDecryptRoundTrip : Obligations.EncryptDecryptRoundTrip := fun k s s' p hkey hs hkey' hs' hlen => by
  obtain ⟨hsbox, hinv⟩ := tableFull_of_holdsInstance hs
  constructor
  · obtain ⟨c, hc⟩ := encrypt_isSome (pack p) s.readRk hsbox
    have hback : blockResult (.dec (unpack c)) s' = some (pack p) := by
      rw [blockResult, pack_unpack, (encrypt_eq_some_iff_decrypt_of_holdsInstance hs hs' _ c).mp hc]
    exact ⟨c, exec_block_ok_on_each (i := .enc p) (j := .dec (unpack c)) rfl rfl hkey hkey' hlen rfl hc hback⟩
  · obtain ⟨x, hx⟩ := decrypt_isSome (pack p) s.readRk hinv
    have hback : blockResult (.enc (unpack x)) s' = some (pack p) := by
      rw [blockResult, pack_unpack, (encrypt_eq_some_iff_decrypt_of_holdsInstance hs' hs x _).mpr hx]
    exact ⟨x, exec_block_ok_on_each (i := .dec p) (j := .enc (unpack x)) rfl rfl hkey hkey' hlen rfl hx hback⟩

end Sys2Proof
end

section
/-! The commands `KEY` and `DIFF` (spec/46_commands.md R116, R119): the two that need no key, so that the length of the
payload alone decides their answer. -/

namespace Sys2Proof

open Sys2Proof.Machine

/-! ### `KEY` (R116) -/

/-- Settles O33: the two things `KEY` can do; the round keys it leaves, read one by one. -/
theorem keyCommand : Obligations.KeyCommand := fun p s => by
  rcases exec_key_cases p s with ⟨hlen, t, ht, hanswers, hsame, -⟩ | ⟨hlen, t, ht, hanswers, -, hkey, hholds, -, -⟩
  · exact ⟨rfl, fun hp => absurd hp hlen, fun _ => ⟨t, ht, hanswers, hsame⟩⟩
  · obtain ⟨hrk, hsbox, hinv⟩ := hholds
    have hround : ∀ i : Fin 8, t.rk[i] = roundKey (pack p) i := fun i => by rw [hrk, roundKeys_getElem]
    exact ⟨rfl, fun _ => ⟨t, ht, hanswers, hkey, hround, hsbox, hinv⟩, fun hp => absurd hlen hp⟩

/-! ### `DIFF` (R119) -/

/-- `DIFF` of 16 bytes completes in every state, keyed or not. -/
theorem exec_diff_ok {p : List Byte} (hlen : p.length = 16) (s : State) :
    ∃ t, exec (.diff p) s = .next t ∧ AnswersWith s t .ok (some (diff (pack p))) ∧ SameInstance s t :=
  exec_block_ok (i := .diff p) rfl hlen (fun hneed => nomatch hneed) rfl

/-- Settles O36: a `DIFF` of 16 bytes meets no other check, and `Diff` of the answered block is the block. -/
theorem diffCommand : Obligations.DiffCommand := fun p s => by
  refine ⟨rfl, fun hlen => ?_, exec_block_invalidBlockLength (i := .diff p) rfl⟩
  obtain ⟨t, ht, hanswers, hsame⟩ := exec_diff_ok hlen s
  obtain ⟨u, hu, hback, -⟩ := exec_diff_ok (unpack_length (diff (pack p))) t
  rw [pack_unpack, diff_involutive] at hback
  exact ⟨t, ht, hanswers, hsame, u, hu, hback⟩

end Sys2Proof
end

section
/-! Errors (spec/60_exceptions.md): which one a packet is answered with where several checks fail (R131 to R135), and
that taking it changes no architectural state (R137). -/

namespace Sys2Proof

open Sys2Proof.Machine

/-! ### The status of a response (R131 to R135) -/

/-- Settles O5: the first byte of the response packet of the expected status is that status's code. -/
theorem statusOfFirstFailingCheck : Obligations.StatusOfFirstFailingCheck := fun s o p rest hs hin => by
  obtain ⟨hshape, -⟩ := responseShape
  obtain ⟨t, _, ht, -, -, -, -, data, hpend, -⟩ := hshape s o p rest hs hin
  exact ⟨t, _, ht, by rw [hpend]; exact beatsOf_data _⟩

/-! ### Taking an error (R136, R137) -/

/-- A command that fails a check completes in every state, whatever its tables hold: it answers the status alone. -/
theorem exec_answered_of_error {i : Instr} {s : State}
    (herr : expectedStatus i.opcode i.payload.length s.keyValid ≠ .ok) :
    ∃ t, exec i s = .next t ∧ Answered s t (expectedStatus i.opcode i.payload.length s.keyValid) none := by
  rw [expectedStatus_opcode] at herr ⊢
  rcases eq_key_or_isBlockCommand i with ⟨p, rfl⟩ | hi
  · rcases exec_key_cases p s with ⟨hlen, t, ht, ha⟩ | ⟨hlen, -⟩
    · exact ⟨t, ht, by rwa [if_pos (show (Instr.key p).payload.length ≠ 16 from hlen)]⟩
    · exact absurd (by simp [Instr.payload, hlen, needsKey]) herr
  · rcases exec_block_cases i hi s with ⟨hlen, t, ht, ha⟩ | ⟨hlen, hneed, hkey, t, ht, ha⟩ | ⟨hlen, hkey, -⟩
    · exact ⟨t, ht, by simpa [hlen, hi] using ha⟩
    · exact ⟨t, ht, by simpa [hlen, hneed, hkey] using ha⟩
    · exact absurd (by simpa [hlen] using hkey) herr

/-- A step that takes a packet failing a check completes: it answers the status alone, on the state that has taken the
packet off the stream (R45). -/
theorem step_answered_of_error {s : State} {o : Byte} {p : List Byte} {rest : List HostEvent}
    (hp : nextPortEvent s.hostIn = .packet o p rest) (herr : expectedStatus o p.length s.keyValid ≠ .ok) :
    ∃ t, step s = .next t ∧ Answered (s.accept rest) t (expectedStatus o p.length s.keyValid) none := by
  cases hd : decode (o :: p) with
  | error e =>
    have hstatus : expectedStatus o p.length s.keyValid = .illegalCommand := if_pos (illegal_of_decode_error hd)
    rw [hstatus]
    exact ⟨_, step_of_decode_error hp hd, illegalCommand_answered o p _⟩
  | ok i =>
    obtain ⟨rfl, rfl⟩ : i.opcode = o ∧ i.payload = p := List.cons.inj (encode_of_decode hd)
    rw [step_of_decode_ok hp hd]
    exact exec_answered_of_error herr

/-- Settles O6: the step answers the status alone, and an answer keeps the architectural state. -/
theorem errorsChangeNothing : Obligations.ErrorsChangeNothing := fun s o p rest hin herr => by
  have hp : nextPortEvent s.hostIn = .packet o p rest := by rw [hin, nextPortEvent_packetEvents]
  obtain ⟨t, ht, ⟨hpend, hin', hsent⟩, hsame, -⟩ := step_answered_of_error hp herr
  exact ⟨t, ht, hsame, hpend, hsent.trans (s.accept_rspSent rest), hin'.trans (s.accept_hostIn rest)⟩

end Sys2Proof
end

section
/-! The reset event and the unfinished packet (spec/70_reset_and_hazards.md R150, R153, R159; spec/30_encoding.md
R51). -/

namespace Sys2Proof

open Sys2Proof.Machine

/-! ### The reset event (R150, R153) -/

/-- Settles O13: the step that meets `rst` is the reset event, which empties both tables. -/
theorem resetEventAtAnyTime : Obligations.ResetEventAtAnyTime := fun s rest hin =>
  have hp : nextPortEvent s.hostIn = .reset rest := by rw [hin, nextPortEvent]
  ⟨s.resetEvent rest, step_of_reset hp, rfl, rfl, rfl, rfl, rfl, memRead_nil, memRead_nil⟩

/-! ### A packet without its last byte -/

/-- An opcode byte and payload bytes, none of them the last, are a packet in progress whatever the host does next. -/
theorem nextPortEvent_open (o : Byte) (p : List Byte) (after : List HostEvent) :
    nextPortEvent (.cmd ⟨o, false⟩ :: p.map (fun b => .cmd ⟨b, false⟩) ++ after) = framePayload o p after :=
  framePayload_open o [] p after

/-- Settles O14: `rst` after a packet without its last byte is the reset event of the drained engine. -/
theorem resetAbandonsPacket : Obligations.ResetAbandonsPacket := fun s o p rest hin =>
  have hp : nextPortEvent s.hostIn = .resetInPacket rest := by rw [hin, nextPortEvent_open, framePayload]
  ⟨s.drain.resetEvent rest, step_of_resetInPacket hp, rfl, rfl, rfl, rfl, rfl⟩

/-! ### Waiting in `RECV` (R159) -/

theorem drain_of_no_response {s : State} (h : s.rspPending = []) : s.drain = s := by
  rw [State.drain, h, List.append_nil, if_pos rfl, ← h]

/-- Latching the same payload bytes again changes no lane: a lane is the byte that has come, or what it held. -/
theorem latchInb_latchInb (old : Block) (p : List Byte) : latchInb (latchInb old p) p = latchInb old p := by
  refine block_ext fun i => ?_
  simp only [byteOf_latchInb]
  rcases Nat.lt_or_ge i.val p.length with hi | hi
  · rw [List.getD_eq_getElem _ _ hi, List.getD_eq_getElem _ _ hi]
  · rw [List.getD_eq_default _ _ hi]

theorem receive_receive (s : State) (o : Byte) (p : List Byte) : (s.receive o p).receive o p = s.receive o p := by
  simp only [State.receive, latchInb_latchInb]

/-- An engine waiting for the rest of a packet is a fixed point of waiting for it: nothing is left to send, and the
port's registers hold what has come. -/
theorem await_await (s : State) (o : Byte) (p : List Byte) : (s.await o p).await o p = s.await o p :=
  calc (s.await o p).await o p
    _ = (s.await o p).receive o p := by rw [State.await, drain_of_no_response (s.await_rspPending o p)]
    _ = s.await o p := receive_receive s.drain o p

/-- Settles O9: the step that meets an unfinished packet is `await`, which leaves the packet in the host's list, so the
next step meets it again and changes nothing. -/
theorem stalledPacketWaits : Obligations.StalledPacketWaits := fun s o p hin => by
  have hp : nextPortEvent s.hostIn = .waiting o p := by
    rw [hin, ← List.append_nil (_ :: _), nextPortEvent_open, framePayload]
  have hp' : nextPortEvent (s.await o p).hostIn = .waiting o p := hp
  have hbyte : ∀ i : Lane, (h : i.val < p.length) → byteOf (s.await o p).inb i = p[i.val] := fun i hi => by
    rw [State.await_inb, byteOf_latchInb, List.getD_eq_getElem _ _ hi]
  have hstays : step (s.await o p) = .next (s.await o p) := by rw [step_of_waiting hp', await_await]
  exact ⟨s.await o p, step_of_waiting hp, await_sameInstance s o p, rfl, rfl, latchLen_toNat p, hbyte, rfl, hstays⟩

end Sys2Proof
end
